-- ==== Sys2Proof/Word.lean ====
section
/-! DEFINITION. The words of the block: bytes, samples, codes, counts and the command word (00_scope.md R8, R10, R11;
30_encoding.md R70, R71, R80). -/

namespace Sys2Proof

/-- One byte, a `u8` (00_scope.md R14). -/
abbrev Byte := BitVec 8

/-- A linear PCM sample: `SAMPLE_W` = 16 bits, read as two's complement (30_encoding.md R70). -/
abbrev Sample := BitVec 16

/-- A µ-law code in stored (complemented) form: `CODE_W` = 8 bits (30_encoding.md R72). -/
abbrev Code := BitVec 8

/-- A payload byte count, a `u32` (42_wave_header.md R150, 43_stream_sequences.md R170). -/
abbrev Count := BitVec 32

/-- A command word of format `CMD40` (30_encoding.md R80). -/
abbrev CmdWord := BitVec 40

/-- The two header kinds (00_scope.md R15; 30_encoding.md R81). -/
inductive Kind where
  | pcm
  | mulaw
deriving DecidableEq, Repr

end Sys2Proof
end

