-- ==== Sys2Proof/Config.lean ====
section
/-! DEFINITION. The fixed parameters of the block (00_scope.md R8), under the spec's names, and the one open parameter
for which the spec gives no default (00_scope.md R9, FRAME_CAP). The other open parameters are fields of the state. -/

namespace Sys2Proof.Config

/-- `BIAS`: added to the magnitude before the segment search, subtracted after reconstruction. -/
abbrev bias : Nat := 33

/-- `CLIP`: the 13-bit ceiling of the biased magnitude. -/
abbrev clip : Nat := 8191

/-- `SCAN_TOP`: the highest bit index the leading-bit scan looks at. -/
abbrev scanTop : Nat := 12

/-- `SCAN_BOT`: the lowest bit index the scan looks at; position minus this is the segment. -/
abbrev scanBot : Nat := 5

/-- `MANT_W`: the number of mantissa bits. -/
abbrev mantW : Nat := 4

/-- `SEG_W`: the number of segment bits. -/
abbrev segW : Nat := 3

/-- `HDR_LEN`: the length of a header in bytes. -/
abbrev hdrLen : Nat := 44

/-- `OFF_CHUNKSIZE`: the offset of ChunkSize. -/
abbrev offChunkSize : Nat := 4

/-- `OFF_DATASIZE`: the offset of Subchunk2Size. -/
abbrev offDataSize : Nat := 40

/-- `CHUNK_OVERHEAD`: ChunkSize minus Subchunk2Size. -/
abbrev chunkOverhead : Nat := 36

/-- `SUBCHUNK1_SIZE`. -/
abbrev subchunk1Size : Nat := 16

/-- `NUM_CHANNELS`. -/
abbrev numChannels : Nat := 1

/-- `SAMPLE_RATE`. -/
abbrev sampleRate : Nat := 8000

/-- `FMT_PCM`: AudioFormat of the PCM header. -/
abbrev fmtPcm : Nat := 1

/-- `FMT_MULAW`: AudioFormat of the µ-law header. -/
abbrev fmtMulaw : Nat := 7

/-- The largest count `HDR_PATCH` accepts: `0xFFFFFFDB`, the largest `n` for which `n + 36` fits a `u32`
(42_wave_header.md R151). -/
abbrev maxCount : Nat := 0xFFFFFFDB

/-- How far `FRAME_CAP` at reset goes beyond the 44 bytes the spec demands. It has no body: the spec gives FRAME_CAP no
default and a model quantifies over it (00_scope.md R9). DESIGN CHOICE, safe: notes/assumptions/1.md. -/
opaque frameCapBeyondHeader : Nat

/-- `FRAME_CAP` of the machine at reset: some number of at least 44 (00_scope.md R9, 20_memory.md R41). -/
def frameCap : Nat := frameCapBeyondHeader + 44

/-- The default of `ENC_SKIP` (00_scope.md R9). -/
abbrev encSkipDefault : Nat := 44

/-- The default of `DEC_SKIP` (00_scope.md R9; 43_stream_sequences.md R179). -/
abbrev decSkipDefault : Nat := 56

/-- The default of `SHORT_SKIP_IS_ERROR` (00_scope.md R9; 43_stream_sequences.md R181). -/
abbrev shortSkipIsErrorDefault : Bool := false

end Sys2Proof.Config
end

