-- ==== Sys2Proof/Syntax.lean ====
section
/-! DEFINITION. The four commands of the block (00_scope.md R3; 30_encoding.md R81), one constructor per row of the
opcode table. -/

namespace Sys2Proof

/-- A command with its one operand (30_encoding.md R81, R82). -/
inductive Instr where
  /-- `ENC sample` (40_encode.md R100). -/
  | enc (sample : Sample)
  /-- `DEC code` (41_decode.md R120). -/
  | dec (code : Code)
  /-- `HDR_BUILD kind` (42_wave_header.md R141). -/
  | hdrBuild (kind : Kind)
  /-- `HDR_PATCH n` (42_wave_header.md R150). -/
  | hdrPatch (n : Count)
deriving DecidableEq, Repr

end Sys2Proof
end

