-- ==== Sys2Proof/WellFormed.lean ====
section
/-! DEFINITION. Which command words are legal (30_encoding.md R81, R84), which commands are well-formed, and which values
of the open parameter FRAME_CAP are allowed (00_scope.md R9). -/

namespace Sys2Proof

/-- One row of the opcode map as the spec tabulates it: a word `w` selects the row when `w & mask = match`
(30_encoding.md R81). -/
structure OpRow where
  mnemonic : String
  pattern : CmdWord
  mask : CmdWord
deriving DecidableEq, Repr

/-- The match and mask table of 30_encoding.md R81. -/
def opcodeTable : List OpRow :=
  [ { mnemonic := "ENC",       pattern := 0x0100000000#40, mask := 0xFFFFFF0000#40 },
    { mnemonic := "DEC",       pattern := 0x0200000000#40, mask := 0xFFFFFFFF00#40 },
    { mnemonic := "HDR_BUILD", pattern := 0x0300000000#40, mask := 0xFFFFFFFFFE#40 },
    { mnemonic := "HDR_PATCH", pattern := 0x0400000000#40, mask := 0xFF00000000#40 } ]

/-- A word selects a row (30_encoding.md R81). -/
def OpRow.selects (r : OpRow) (w : CmdWord) : Bool := w &&& r.mask == r.pattern

/-- A command word is legal when it matches some row; any other word is illegal (30_encoding.md R84). -/
def legalWord (w : CmdWord) : Bool := opcodeTable.any (fun r => r.selects w)

/-- The mnemonic of a command, as the opcode table spells it. -/
def Instr.mnemonic : Instr → String
  | .enc _ => "ENC"
  | .dec _ => "DEC"
  | .hdrBuild _ => "HDR_BUILD"
  | .hdrPatch _ => "HDR_PATCH"

/-- A command is well-formed when its operand is legal in its field. The fields' types leave only legal operands: all
65536 samples, all 256 codes, both kinds and all 2^32 counts (30_encoding.md R84); so no term is refused here, and the
checks that can fail are those on words (`legalWord`) and on FRAME_CAP (`frameCapOk`). -/
def Instr.wellFormed : Instr → Bool
  | .enc _ => true
  | .dec _ => true
  | .hdrBuild _ => true
  | .hdrPatch _ => true

/-- The constraint on the open parameter: `44 <= FRAME_CAP` (00_scope.md R9). -/
def frameCapOk (cap : Nat) : Bool := decide (Config.hdrLen ≤ cap)

end Sys2Proof
end

