-- ==== Sys2Proof/Decode.lean ====
section
/-! DEFINITION. The decoder of command words, total on all 40-bit words, and the encoder, both from 30_encoding.md
R80 to R84. -/

namespace Sys2Proof

/-- Why a word is illegal (30_encoding.md R84). Either way the block answers Fault(IllegalCommand). -/
inductive DecodeError where
  /-- `opcode` is 0x00 or 0x05 to 0xFF. -/
  | unknownOpcode (opcode : BitVec 8)
  /-- The opcode is known and a reserved operand bit is 1. -/
  | reservedBits (mnemonic : String)
deriving DecidableEq, Repr

/-- `opcode`, bits 39:32 (30_encoding.md R80). -/
def opcodeOf (w : CmdWord) : BitVec 8 := w.extractLsb' 32 8

/-- `operand`, bits 31:0 (30_encoding.md R80). -/
def operandOf (w : CmdWord) : BitVec 32 := w.extractLsb' 0 32

/-- `operand[0]`: 0 = PCM, 1 = MULAW (30_encoding.md R81). -/
def kindOfBit (b : Bool) : Kind := if b then .mulaw else .pcm

/-- The bit that stands for a kind (30_encoding.md R81). -/
def Kind.bit : Kind → BitVec 1
  | .pcm => 0#1
  | .mulaw => 1#1

/-- ENC: `operand[15:0]` is the sample, `operand[31:16]` must be zero (30_encoding.md R81, R84). -/
def decodeEnc (operand : BitVec 32) : Except DecodeError Instr :=
  if operand.extractLsb' 16 16 = 0#16 then .ok (.enc (operand.extractLsb' 0 16)) else .error (.reservedBits "ENC")

/-- DEC: `operand[7:0]` is the code, `operand[31:8]` must be zero (30_encoding.md R81, R84). -/
def decodeDec (operand : BitVec 32) : Except DecodeError Instr :=
  if operand.extractLsb' 8 24 = 0#24 then .ok (.dec (operand.extractLsb' 0 8)) else .error (.reservedBits "DEC")

/-- HDR_BUILD: `operand[0]` is the kind, `operand[31:1]` must be zero (30_encoding.md R81, R84). -/
def decodeHdrBuild (operand : BitVec 32) : Except DecodeError Instr :=
  if operand.extractLsb' 1 31 = 0#31 then .ok (.hdrBuild (kindOfBit (operand.getLsbD 0)))
  else .error (.reservedBits "HDR_BUILD")

/-- HDR_PATCH: all 32 operand bits are the count; nothing is reserved (30_encoding.md R81). -/
def decodeHdrPatch (operand : BitVec 32) : Except DecodeError Instr := .ok (.hdrPatch operand)

/-- The command of a word, or the reason the word is illegal (30_encoding.md R81, R84). -/
def decode (w : CmdWord) : Except DecodeError Instr :=
  if opcodeOf w = 0x01#8 then decodeEnc (operandOf w)
  else if opcodeOf w = 0x02#8 then decodeDec (operandOf w)
  else if opcodeOf w = 0x03#8 then decodeHdrBuild (operandOf w)
  else if opcodeOf w = 0x04#8 then decodeHdrPatch (operandOf w)
  else .error (.unknownOpcode (opcodeOf w))

/-- Assemble opcode and operand into a word (30_encoding.md R80). -/
def commandWord (opcode : BitVec 8) (operand : BitVec 32) : CmdWord := opcode ++ operand

/-- The word of a command: operand right-aligned, unused high bits zero (30_encoding.md R80, R81, R82). -/
def encode : Instr → CmdWord
  | .enc sample => commandWord 0x01#8 (sample.setWidth 32)
  | .dec code => commandWord 0x02#8 (code.setWidth 32)
  | .hdrBuild kind => commandWord 0x03#8 (kind.bit.setWidth 32)
  | .hdrPatch n => commandWord 0x04#8 n

/-- The command word whose low `nbits` bits are `w` and whose other bits are zero, numbered as the opcode table numbers
them: bit 0 is the least significant bit of the one 40-bit word (00_scope.md R10; notes/assumptions/19.md). -/
def tableWord (nbits w : Nat) : CmdWord := BitVec.ofNat 40 (w % 2 ^ nbits)

/-- The command the decoder reads from a word given as the opcode table numbers its bits. -/
def decodeTableWord (nbits w : Nat) : Option Instr :=
  match decode (tableWord nbits w) with
  | .ok i => some i
  | .error _ => none

end Sys2Proof
end

