-- ==== Sys2Proof/Machine/State.lean ====
section
/-! DEFINITION. The state of the machine as plain data: the frame store, the two ports, the open parameters, and the
host of 43_stream_sequences.md; the reasons a step can stop; and the state after reset (10_state.md R25 to R30). -/

namespace Sys2Proof.Machine

/-- The frame store in canonical form: (offset, byte) pairs, offsets strictly rising. An offset that is not listed is
`unwritten` (10_state.md R25, R30). -/
abbrev Memory := List Host.Cell

/-- The canonical form of the frame store. An unlisted offset has no value, so no listed byte can equal it. -/
abbrev Memory.wf (m : Memory) : Prop := m.Pairwise (fun x y => x.1 < y.1)

/-- The causes of a Fault response with the info each reports (60_exceptions.md R201). -/
inductive Cause where
  /-- The 40-bit word matches no row of the opcode map; reports the word. -/
  | illegalCommand (word : CmdWord)
  /-- `HDR_PATCH` with `n > 0xFFFFFFDB`; reports `n`. -/
  | patchRange (n : Count)
  /-- The sink refused a write of `HDR_PATCH`; reports the offset, 40 or 4. -/
  | sinkWrite (offset : Nat)
deriving DecidableEq, Repr

/-- The payload of an Ok response (30_encoding.md R83). -/
inductive Result where
  /-- A `u8` code, for ENC. -/
  | code (c : Code)
  /-- A 16-bit sample, for DEC. -/
  | sample (y : Sample)
  /-- 44 bytes, index 0 first, for HDR_BUILD. -/
  | header (h : List Byte)
  /-- Nothing, for HDR_PATCH. -/
  | nothing
deriving DecidableEq, Repr

/-- A response of the block: a tagged value (30_encoding.md R83). -/
inductive Response where
  | ok (result : Result)
  | fault (cause : Cause)
deriving DecidableEq, Repr

/-- The open parameters of the sink (00_scope.md R9). They are carried in the state so that a statement over all states
holds for all their values; no step changes them (notes/assumptions/1.md, 2.md). -/
structure Sink where
  /-- FRAME_CAP: the number of bytes the frame store holds. -/
  cap : Nat
  /-- SinkRefuses, as the list of (offset, length) pairs it is true of. -/
  refused : List (Nat × Nat)
deriving DecidableEq, Repr

/-- The open parameters of the host (00_scope.md R9). -/
structure HostParams where
  /-- ENC_SKIP. -/
  encSkip : Nat
  /-- DEC_SKIP. -/
  decSkip : Nat
  /-- SHORT_SKIP_IS_ERROR. -/
  shortSkipIsError : Bool
deriving DecidableEq, Repr

/-- What a host may do between commands (70_reset_and_hazards.md R258 rows 1 to 4; 30_encoding.md R87), and the two
reference sequences (43_stream_sequences.md). -/
inductive HostAction where
  /-- Hand any 40-bit word to the command port. -/
  | issue (word : CmdWord)
  /-- `PUT <off>, <bytes>`. -/
  | put (off : Nat) (bytes : List Byte)
  /-- `PUT <off>, RESULT`. -/
  | putResult (off : Nat)
  /-- Read `n` bytes of the frame store. -/
  | read (off n : Nat)
  /-- The reset event. -/
  | reset
  /-- Start EncodeStream on a source; `none` is a stream that cannot be opened (43_stream_sequences.md R182). -/
  | encodeStream (src : Option (List Byte))
  /-- Start DecodeStream on a source; `none` is a stream that cannot be opened. -/
  | decodeStream (src : Option (List Byte))
deriving DecidableEq, Repr

/-- What the host got back from its last PUT or read (70_reset_and_hazards.md R258 rows 2 and 3). -/
inductive Answer where
  | put (accepted : Bool)
  /-- `none`: no value, because a byte is unwritten (20_memory.md R43). -/
  | read (value : Option Nat)
deriving DecidableEq, Repr

/-- Which reference sequence a run executes. -/
inductive Direction where
  | encode
  | decode
deriving DecidableEq, Repr

/-- The errors a reference host reports (43_stream_sequences.md R181, R182, R184). -/
inductive HostError where
  /-- Source missing or destination unwritable (R182). -/
  | streamOpen
  /-- The source is shorter than its skip prefix and SHORT_SKIP_IS_ERROR is true (R181). -/
  | shortSkip
  /-- The sink refused a write of the host or, passed on by the block, of HDR_PATCH, at this offset (R184). -/
  | sinkWrite (offset : Nat)
  /-- The final HDR_PATCH answered another fault. A run cannot meet it, since longer payloads are refused (R187); the
  constructor makes the host total. -/
  | patchFault (cause : Cause)
deriving DecidableEq, Repr

/-- The next line of a sequence's pseudocode (43_stream_sequences.md R172, R178). -/
inductive Phase where
  | skip
  /-- Issue HDR_BUILD. -/
  | header
  /-- PUT the header at 0. -/
  | putHeader
  /-- Test the loop condition, read one unit of the source and issue ENC or DEC. -/
  | loop
  /-- PUT one unit of payload and count it. -/
  | putUnit
  /-- Issue HDR_PATCH. -/
  | patch
  /-- Take the response to HDR_PATCH. -/
  | finish
  /-- The run is complete. -/
  | done
  /-- The run stopped with a host error; nothing is undone (R184). -/
  | failed (e : HostError)
deriving DecidableEq, Repr

/-- The host state of one stream run (43_stream_sequences.md R170). -/
structure StreamRun where
  dir : Direction
  phase : Phase
  /-- The source stream. -/
  src : List Byte
  /-- Read position in `src`. -/
  rp : Nat
  /-- Write position in the frame store. -/
  wp : Nat
  /-- Payload bytes written so far, a `u32`. -/
  cnt : Count
deriving DecidableEq, Repr

/-- The host: its parameters, what it will do next, what it last got back, and its stream run if it has one. -/
structure HostSide where
  params : HostParams
  pending : List HostAction
  answer : Option Answer
  run : Option StreamRun
deriving DecidableEq, Repr

/-- The state. `frame` is all the block keeps (10_state.md R29); the two ports are those of 10_state.md R30; `faultLog`
is the log of faults that 60_exceptions.md R203 lets a model keep beside the state, newest first, and that nothing reads;
`sink` and `host.params` are the open parameters; the rest of `host` is the host of 43_stream_sequences.md. -/
structure State where
  frame : Memory
  cmdPort : Option CmdWord
  respPort : Option Response
  faultLog : List Cause
  sink : Sink
  host : HostSide
deriving DecidableEq, Repr

/-- The reasons a step stops with a fault. No command of the block is among them: a fault of the block is a response,
after which the block takes the next command (60_exceptions.md R200, R208). -/
inductive Fault where
  /-- Raised by a host turn after the host's stream run stopped with an error: the host issues nothing more and the run
  ends in a fault (43_stream_sequences.md R184; 93_implementation_defined.md U4). The error and the frame stand in the
  state before it. Safe: the model stops where another host might go on. -/
  | runFailed (e : HostError)
deriving DecidableEq, Repr

/-- The reasons a step is refused. -/
inductive Refusal where
  /-- Raised by an arm of exec that has no meaning yet; none is left. Safe. -/
  | notModelled (mnemonic : String)
  /-- Raised by a host turn of a stream run whose payload passes 0xFFFFFFDB bytes; the spec gives such a run no meaning
  and a model refuses it (43_stream_sequences.md R187). Safe. -/
  | payloadTooLong
  /-- Raised by a host turn that needs the previous command's Ok bytes (`PUT <off>, RESULT`, or a stream run waiting for
  its response) when there are none; 30_encoding.md R87 gives the line no meaning then. Safe. -/
  | noResult
deriving DecidableEq, Repr

/-- The host at reset: the defaults of 00_scope.md R9, nothing pending, no run (notes/assumptions/4.md). -/
def HostSide.initial : HostSide :=
  { params :=
      { encSkip := Config.encSkipDefault, decSkip := Config.decSkipDefault,
        shortSkipIsError := Config.shortSkipIsErrorDefault },
    pending := [], answer := none, run := none }

/-- The machine right after reset: every frame byte unwritten and both ports idle (10_state.md R30), the open parameters
at their defaults (00_scope.md R9), a host that has nothing to do yet. -/
def State.reset : State :=
  { frame := [], cmdPort := none, respPort := none, faultLog := [],
    sink := { cap := Config.frameCap, refused := [] }, host := HostSide.initial }

end Sys2Proof.Machine
end

