-- ==== Sys2Proof/Machine/Operands.lean ====
section
/-! DEFINITION. Readings of operands and results: signed views (00_scope.md R11), byte order (00_scope.md R14,
20_memory.md R44, R45) and the bytes of a result (30_encoding.md R87). -/

namespace Sys2Proof.Machine

/-- `signed_16(v)`: the two's-complement reading of a sample (00_scope.md R11). -/
def signed16 (v : Sample) : Int := v.toInt

/-- `signed_8(v)`: the signed view of a code (30_encoding.md R73). -/
def signed8 (v : Code) : Int := v.toInt

/-- `bits_16(i)`: the 16-bit vector of an integer (00_scope.md R11). -/
def bits16 (i : Int) : Sample := BitVec.ofInt 16 i

/-- The `n` low bytes of `v`, least significant first (20_memory.md R44). -/
def leBytes : Nat → Nat → List Byte
  | 0, _ => []
  | n + 1, v => BitVec.ofNat 8 v :: leBytes n (v / 256)

/-- The number whose bytes, least significant first, are the list (20_memory.md R43). -/
def leValue : List Byte → Nat
  | [] => 0
  | b :: bs => b.toNat + 256 * leValue bs

/-- `le16(v)` (00_scope.md R14). -/
def le16 (v : BitVec 16) : List Byte := leBytes 2 v.toNat

/-- `le32(v)` (00_scope.md R14). -/
def le32 (v : BitVec 32) : List Byte := leBytes 4 v.toNat

/-- The sample of two stream bytes, first byte low: `b1 ‖ b0` (30_encoding.md R82). -/
def sampleOfBytes (b0 b1 : Byte) : Sample := b1 ++ b0

/-- The bytes `RESULT` stands for: 1 for ENC, 2 low byte first for DEC, 44 for HDR_BUILD (30_encoding.md R87). HDR_PATCH
returns nothing, so there are none. -/
def Result.bytes? : Result → Option (List Byte)
  | .code c => some [c]
  | .sample y => some (le16 y)
  | .header h => some h
  | .nothing => none

/-- The bytes of an Ok response (30_encoding.md R87). -/
def Response.bytes? : Response → Option (List Byte)
  | .ok r => r.bytes?
  | .fault _ => none

/-- The cause codes (60_exceptions.md R201). -/
def Cause.number : Cause → Byte
  | .illegalCommand _ => 1#8
  | .patchRange _ => 2#8
  | .sinkWrite _ => 3#8

/-- The code column of 60_exceptions.md R201: 0 for Ok, else the cause's code. -/
def Response.number : Response → Byte
  | .ok _ => 0#8
  | .fault c => c.number

end Sys2Proof.Machine
end

