-- ==== Sys2Proof/Machine/Flags.lean ====
section
/-! DEFINITION. The block has no flags (10_state.md R22). What the source calls a sign flag is a temporary inside one
command; this file holds the two computations of it. -/

namespace Sys2Proof.Machine

/-- `s` of ENC: 1 exactly when the sample is negative; zero is not (40_encode.md R101). -/
def encSign (x : Int) : Nat := if x < 0 then 1 else 0

/-- `s` of DEC: bit 7 of the logical byte (41_decode.md R122). -/
def decSign (logical : Byte) : Bool := logical.getLsbD 7

end Sys2Proof.Machine
end

