-- ==== Sys2Proof/Machine/Ops.lean ====
section
/-! DEFINITION. The named operations: reading and writing the frame store (20_memory.md), answering a command and
raising a fault (60_exceptions.md R200), the two ports, and the reset event (70_reset_and_hazards.md R240). -/

namespace Sys2Proof.Machine

/-- The byte at an offset; `none` is `unwritten` (10_state.md R25). -/
def Memory.read : Memory → Nat → Option Byte
  | [], _ => none
  | (x, v) :: rest, a => if a = x then some v else Memory.read rest a

/-- Write one byte, keeping offsets strictly rising; what was there is replaced (20_memory.md R44). -/
def Memory.write : Memory → Nat → Byte → Memory
  | [], a, b => [(a, b)]
  | (x, v) :: rest, a, b =>
    if a < x then (a, b) :: (x, v) :: rest
    else if a = x then (a, b) :: rest
    else (x, v) :: Memory.write rest a b

/-- Write bytes at consecutive offsets, the first at `a`. -/
def Memory.writeBytes : Memory → Nat → List Byte → Memory
  | m, _, [] => m
  | m, a, b :: bs => Memory.writeBytes (m.write a b) (a + 1) bs

/-- Read `n` bytes from `a` up; `none` if any of them is unwritten (20_memory.md R43). -/
def Memory.readBytes (m : Memory) : Nat → Nat → Option (List Byte)
  | _, 0 => some []
  | a, n + 1 =>
    match m.read a, Memory.readBytes m (a + 1) n with
    | some b, some bs => some (b :: bs)
    | _, _ => none

/-- `FLEN`: one more than the highest offset written, or 0 (20_memory.md R58). -/
def Memory.flen : Memory → Nat
  | [] => 0
  | (x, _) :: rest => max (x + 1) (Memory.flen rest)

/-- `MemRead(addr, n)`: little-endian, and no value if a byte is unwritten (20_memory.md R43). -/
def State.memRead (s : State) (addr n : Nat) : Option Nat := (s.frame.readBytes addr n).map leValue

/-- The frame as a run's result: the bytes 0 to FLEN - 1, if all are written (70_reset_and_hazards.md R257). -/
def State.frameBytes (s : State) : Option (List Byte) := s.frame.readBytes 0 s.frame.flen

/-- The sink accepts a write of `n` bytes at `addr` iff it lies within FRAME_CAP and SinkRefuses is false of it
(20_memory.md R46). -/
def Sink.accepts (k : Sink) (addr n : Nat) : Bool := decide (addr + n ≤ k.cap) && !(k.refused.contains (addr, n))

/-- Store bytes at `addr` up, all or none (20_memory.md R44, R46, R49); `none` is a refused write. -/
def State.store (s : State) (addr : Nat) (bytes : List Byte) : Option State :=
  if s.sink.accepts addr bytes.length then some { s with frame := s.frame.writeBytes addr bytes } else none

/-- `MemWrite(addr, n, v)`: the `n` low bytes of `v`, little-endian (20_memory.md R44). -/
def State.memWrite (s : State) (addr n v : Nat) : Option State := s.store addr (leBytes n v)

/-- Put a response on the response port. -/
def State.respond (s : State) (r : Response) : State := { s with respPort := some r }

/-- `return v`: the command ends with Ok (00_scope.md R13). -/
def State.answerOk (s : State) (r : Result) : State := s.respond (.ok r)

/-- `raise cause`: the command ends with a Fault response; what it wrote stays; nothing else happens
(60_exceptions.md R200). The cause is also noted in the model's own log (60_exceptions.md R203). -/
def State.raise (s : State) (c : Cause) : State := { s with respPort := some (.fault c), faultLog := c :: s.faultLog }

/-- The host hands a word to the command port. From then on the command is in flight and has no response yet
(10_state.md R30; 70_reset_and_hazards.md R254). -/
def State.issue (s : State) (w : CmdWord) : State := { s with cmdPort := some w, respPort := none }

/-- The block takes the word off the command port. -/
def State.takeCommand (s : State) : State := { s with cmdPort := none }

/-- The reset event: every frame byte unwritten, ports idle (70_reset_and_hazards.md R240; 10_state.md R30). The host
and the open parameters are not the block's and stay (notes/assumptions/10.md). An idle response port holds no result, so
a `PUT <off>, RESULT` after a RESET finds none even if the last command answered Ok: DESIGN CHOICE,
notes/assumptions/23.md. -/
def State.resetEvent (s : State) : State :=
  { s with frame := [], cmdPort := none, respPort := none, faultLog := [] }

/-- Replace what the host will do next. -/
def State.setPending (s : State) (l : List HostAction) : State := { s with host := { s.host with pending := l } }

/-- Note what the host got back. -/
def State.setAnswer (s : State) (a : Answer) : State := { s with host := { s.host with answer := some a } }

/-- Replace the host's stream run. -/
def State.setRun (s : State) (r : StreamRun) : State := { s with host := { s.host with run := some r } }

end Sys2Proof.Machine
end

