-- ==== Sys2Proof/Machine/Codec.lean ====
section
/-! DEFINITION. The companding codec: ENC (40_encode.md) and DEC (41_decode.md), each step of the spec's pseudocode a
function of its own, and the meanings of the two commands. -/

namespace Sys2Proof.Machine

/-- Step 1: `mag = |x|`, exact, 0 to 32768 (40_encode.md R101; notes/assumptions/11.md). -/
def magnitude (x : Int) : Nat := x.natAbs

/-- Step 2: add the bias and clamp to the 13-bit ceiling (40_encode.md R102). -/
def biasedMagnitude (mag : Nat) : Nat := min (mag + Config.bias) Config.clip

/-- The downward scan from bit `SCAN_BOT + k`: the highest set bit, or `SCAN_BOT` when none above it is set
(40_encode.md R100, R103). -/
def scanFrom (m : Nat) : Nat → Nat
  | 0 => Config.scanBot
  | k + 1 => if m.testBit (Config.scanBot + (k + 1)) then Config.scanBot + (k + 1) else scanFrom m k

/-- Step 3: the position of the leading set bit among bits 12 to 5 (40_encode.md R103). -/
def position (m : Nat) : Nat := scanFrom m (Config.scanTop - Config.scanBot)

/-- Step 4: `seg = p - 5` (40_encode.md R104). -/
def segmentOf (m : Nat) : Nat := position m - Config.scanBot

/-- Step 4: the four bits just below the leading bit (40_encode.md R104). -/
def mantissaOf (m : Nat) : Nat := (m >>> (position m - Config.mantW)) &&& 0xF

/-- Step 5: the logical byte `s ‖ seg ‖ mant` (40_encode.md R105; 30_encoding.md R71). -/
def packLogical (sign seg mant : Nat) : Byte := BitVec.ofNat 8 ((sign <<< 7) ||| (seg <<< 4) ||| mant)

/-- The stored form of a logical byte, and the logical byte of a stored code: the complement
(30_encoding.md R72; 41_decode.md R121). -/
def complementByte (b : Byte) : Byte := ~~~b

/-- The biased, clamped magnitude of a sample: `m` of the pseudocode (40_encode.md R100). -/
def biasedOf (sample : Sample) : Nat := biasedMagnitude (magnitude (signed16 sample))

/-- The logical byte of a sample (40_encode.md R100). -/
def logicalOf (sample : Sample) : Byte :=
  packLogical (encSign (signed16 sample)) (segmentOf (biasedOf sample)) (mantissaOf (biasedOf sample))

/-- `Encode`: one sample to one stored code (40_encode.md R100). -/
def encodeSample (sample : Sample) : Code := complementByte (logicalOf sample)

/-- `L[6:4]` (41_decode.md R120, R123). -/
def logicalSegment (logical : Byte) : Nat := (logical.extractLsb' 4 3).toNat

/-- `L[3:0]` (41_decode.md R120). -/
def logicalMantissa (logical : Byte) : Nat := (logical.extractLsb' 0 4).toNat

/-- Step 4 of DEC: the biased magnitude of the middle of the cell (41_decode.md R123, R124). -/
def rebuildBiased (seg mant : Nat) : Nat :=
  (1 <<< (seg + Config.scanBot)) ||| (mant <<< (seg + Config.scanBot - 4)) ||| (1 <<< (seg + Config.scanBot - 5))

/-- `mag` of DEC (41_decode.md R125). -/
def rebuildMagnitude (logical : Byte) : Nat :=
  rebuildBiased (logicalSegment logical) (logicalMantissa logical) - Config.bias

/-- `y` of DEC: the signed value (41_decode.md R125). -/
def decodedValue (code : Code) : Int :=
  if decSign (complementByte code) then -(rebuildMagnitude (complementByte code) : Int)
  else (rebuildMagnitude (complementByte code) : Int)

/-- `Decode`: one stored code to one sample (41_decode.md R120). -/
def decodeCode (code : Code) : Sample := bits16 (decodedValue code)

/-- ENC: answers the code, changes nothing else (40_encode.md R100). -/
def execEnc (sample : Sample) (s : State) : Host.Outcome State Fault Refusal :=
  .next (s.answerOk (.code (encodeSample sample)))

/-- DEC: answers the sample, changes nothing else (41_decode.md R120). -/
def execDec (code : Code) (s : State) : Host.Outcome State Fault Refusal :=
  .next (s.answerOk (.sample (decodeCode code)))

end Sys2Proof.Machine
end

