-- ==== Sys2Proof/Machine/Header.lean ====
section
/-! DEFINITION. The header unit: the two constant templates (42_wave_header.md R142, R143), HDR_BUILD (R141) and
HDR_PATCH (R150 to R153). -/

namespace Sys2Proof.Machine

/-- Bytes 0 to 19, the same in both templates: "RIFF", ChunkSize 0, "WAVE", "fmt ", Subchunk1Size 16
(42_wave_header.md R142, R143). -/
def templateHead : List Byte :=
  [0x52#8, 0x49#8, 0x46#8, 0x46#8] ++ [0x00#8, 0x00#8, 0x00#8, 0x00#8] ++ [0x57#8, 0x41#8, 0x56#8, 0x45#8]
    ++ [0x66#8, 0x6D#8, 0x74#8, 0x20#8] ++ [0x10#8, 0x00#8, 0x00#8, 0x00#8]

/-- Bytes 20 to 35: AudioFormat, NumChannels, SampleRate, ByteRate, BlockAlign, BitsPerSample. -/
def templateFormat : Kind → List Byte
  | .pcm =>
    [0x01#8, 0x00#8] ++ [0x01#8, 0x00#8] ++ [0x40#8, 0x1F#8, 0x00#8, 0x00#8] ++ [0x80#8, 0x3E#8, 0x00#8, 0x00#8]
      ++ [0x02#8, 0x00#8] ++ [0x10#8, 0x00#8]
  | .mulaw =>
    [0x07#8, 0x00#8] ++ [0x01#8, 0x00#8] ++ [0x40#8, 0x1F#8, 0x00#8, 0x00#8] ++ [0x40#8, 0x1F#8, 0x00#8, 0x00#8]
      ++ [0x01#8, 0x00#8] ++ [0x08#8, 0x00#8]

/-- Bytes 36 to 43: "data", Subchunk2Size 0. -/
def templateTail : List Byte := [0x64#8, 0x61#8, 0x74#8, 0x61#8] ++ [0x00#8, 0x00#8, 0x00#8, 0x00#8]

/-- `TEMPLATE[kind]`, a constant (10_state.md R26; 42_wave_header.md R142, R143; notes/assumptions/12.md). -/
def template (kind : Kind) : List Byte := templateHead ++ templateFormat kind ++ templateTail

/-- HDR_BUILD: answers the 44 template bytes, changes nothing else (42_wave_header.md R141). -/
def execHdrBuild (kind : Kind) (s : State) : Host.Outcome State Fault Refusal :=
  .next (s.answerOk (.header (template kind)))

/-- The second write of HDR_PATCH, ChunkSize at offset 4 (42_wave_header.md R150, R152). -/
def patchChunkSize (n : Count) (s : State) : State :=
  match s.memWrite Config.offChunkSize 4 (n.toNat + Config.chunkOverhead) with
  | none => s.raise (.sinkWrite Config.offChunkSize)
  | some t => t.answerOk .nothing

/-- Both writes of HDR_PATCH in the order of the spec: Subchunk2Size at offset 40 first (42_wave_header.md R150, R152;
20_memory.md R52). -/
def patchSizes (n : Count) (s : State) : State :=
  match s.memWrite Config.offDataSize 4 n.toNat with
  | none => s.raise (.sinkWrite Config.offDataSize)
  | some t => patchChunkSize n t

/-- HDR_PATCH: faults with PatchRange before anything is written when `n + 36` does not fit a `u32`, else writes the two
size fields (42_wave_header.md R150, R151; order of checks 60_exceptions.md R206). -/
def execHdrPatch (n : Count) (s : State) : Host.Outcome State Fault Refusal :=
  .next (if Config.maxCount < n.toNat then s.raise (.patchRange n) else patchSizes n s)

end Sys2Proof.Machine
end

