-- ==== Sys2Proof/Machine/Dispatch.lean ====
section
/-! DEFINITION. What each command does: one arm per constructor of Instr. -/

namespace Sys2Proof.Machine

/-- Execute one decoded command (10_state.md R29). -/
def exec (i : Instr) (s : State) : Host.Outcome State Fault Refusal :=
  match i with
  | .enc sample => Sys2Proof.Machine.execEnc sample s
  | .dec code => Sys2Proof.Machine.execDec code s
  | .hdrBuild kind => Sys2Proof.Machine.execHdrBuild kind s
  | .hdrPatch n => Sys2Proof.Machine.execHdrPatch n s

end Sys2Proof.Machine
end

