-- ==== Sys2Proof/Machine/Block.lean ====
section
/-! DEFINITION. The block's turn: take the word off the command port, decode it and execute it, or answer
Fault(IllegalCommand) (60_exceptions.md R204, R206). -/

namespace Sys2Proof.Machine

/-- An illegal word reads no operand, writes no byte and answers Fault(IllegalCommand) (60_exceptions.md R204). -/
def execIllegal (w : CmdWord) (s : State) : Host.Outcome State Fault Refusal := .next (s.raise (.illegalCommand w))

/-- Decode a word and execute it. -/
def execWord (w : CmdWord) (s : State) : Host.Outcome State Fault Refusal :=
  match decode w with
  | .ok i => exec i s
  | .error _ => execIllegal w s

/-- The block's turn on the word `w` of the command port (20_memory.md R51: the block acts only between a command and
its response). -/
def blockTurn (w : CmdWord) (s : State) : Host.Outcome State Fault Refusal := execWord w s.takeCommand

end Sys2Proof.Machine
end

