-- ==== Sys2Proof/Machine/HostTurn.lean ====
section
/-! DEFINITION. The host's turn: its actions between commands (30_encoding.md R87; 70_reset_and_hazards.md R258) and the
reference sequences EncodeStream and DecodeStream (43_stream_sequences.md), one line of their pseudocode a turn. -/

namespace Sys2Proof.Machine

/-- PUT, and what the host gets back: the bytes are stored, or the sink refuses and nothing changes
(70_reset_and_hazards.md R258 row 2). -/
def hostPut (off : Nat) (bytes : List Byte) (s : State) : State :=
  match s.store off bytes with
  | some t => t.setAnswer (.put true)
  | none => s.setAnswer (.put false)

/-- The bytes of the previous command's Ok result, if it has any (30_encoding.md R87). They are read off the response
port, which RESET idles: after a RESET there are none (DESIGN CHOICE, notes/assumptions/23.md). -/
def State.resultBytes (s : State) : Option (List Byte) := s.respPort.bind Response.bytes?

/-- `PUT <off>, RESULT` (30_encoding.md R87; refused by name when there are no bytes, notes/assumptions/7.md and, after
a RESET, 23.md). -/
def hostPutResult (off : Nat) (s : State) : Host.Outcome State Fault Refusal :=
  match s.resultBytes with
  | some bytes => .next (hostPut off bytes s)
  | none => .refused .noResult

/-- Start a run: nothing read, written or counted yet (43_stream_sequences.md R170). -/
def newRun (dir : Direction) (src : List Byte) : StreamRun :=
  { dir := dir, phase := .skip, src := src, rp := 0, wp := 0, cnt := 0#32 }

/-- Start a sequence. A stream that cannot be opened is reported before any byte is written
(43_stream_sequences.md R171, R177, R182). -/
def startStream (dir : Direction) (src : Option (List Byte)) (s : State) : State :=
  match src with
  | some bytes => s.setRun (newRun dir bytes)
  | none => s.setRun { newRun dir [] with phase := .failed .streamOpen }

/-- One action of the host. -/
def hostAction (a : HostAction) (s : State) : Host.Outcome State Fault Refusal :=
  match a with
  | .issue w => .next (s.issue w)
  | .put off bytes => .next (hostPut off bytes s)
  | .putResult off => hostPutResult off s
  | .read off n => .next (s.setAnswer (.read (s.memRead off n)))
  | .reset => .next s.resetEvent
  | .encodeStream src => .next (startStream .encode src s)
  | .decodeStream src => .next (startStream .decode src s)

/-- Take the next pending action; with none, the block is idle and nothing happens (70_reset_and_hazards.md R241;
60_exceptions.md R205; notes/assumptions/5.md). -/
def runPending (s : State) : Host.Outcome State Fault Refusal :=
  match s.host.pending with
  | [] => .next s
  | a :: rest => hostAction a (s.setPending rest)

/-- ENC_SKIP or DEC_SKIP (00_scope.md R9). -/
def HostParams.skipOf (p : HostParams) : Direction → Nat
  | .encode => p.encSkip
  | .decode => p.decSkip

/-- The header a sequence writes: MULAW for EncodeStream, PCM for DecodeStream (43_stream_sequences.md R172, R178). -/
def Direction.kind : Direction → Kind
  | .encode => .mulaw
  | .decode => .pcm

/-- The source bytes of one unit: a 2-byte sample or a 1-byte code (43_stream_sequences.md R172, R178). -/
def Direction.readSize : Direction → Nat
  | .encode => 2
  | .decode => 1

/-- The payload bytes of one unit: a 1-byte code or a 2-byte sample (43_stream_sequences.md R172, R178). -/
def Direction.writeSize : Direction → Nat
  | .encode => 1
  | .decode => 2

/-- `SrcRead(k)`: the `k` bytes at the read position, or nothing on a short read (43_stream_sequences.md R170). -/
def StreamRun.srcRead (r : StreamRun) (k : Nat) : Option (List Byte) :=
  if r.rp + k ≤ r.src.length then some ((r.src.drop r.rp).take k) else none

/-- The command for one unit of the source: `ENC (b1 ‖ b0)` or `DEC c` (43_stream_sequences.md R172, R178;
30_encoding.md R82). -/
def unitCommand (dir : Direction) (unit : List Byte) : Option Instr :=
  match dir, unit with
  | .encode, [b0, b1] => some (.enc (sampleOfBytes b0 b1))
  | .decode, [c] => some (.dec c)
  | _, _ => none

/-- The `skip` line: move past the prefix, or report ShortSkip when the source is shorter and the host takes that as an
error (43_stream_sequences.md R172, R178, R181). R181 does not say whether the read position has moved when ShortSkip is
reported; here it stays where it was, 0 in a new run (DESIGN CHOICE, notes/assumptions/24.md). -/
def turnSkip (r : StreamRun) (s : State) : State :=
  if r.src.length < s.host.params.skipOf r.dir ∧ s.host.params.shortSkipIsError = true then
    s.setRun { r with phase := .failed .shortSkip }
  else s.setRun { r with rp := min (s.host.params.skipOf r.dir) r.src.length, phase := .header }

/-- The `header` line, first half: issue HDR_BUILD. -/
def turnHeader (r : StreamRun) (s : State) : State :=
  (s.setRun { r with phase := .putHeader }).issue (encode (.hdrBuild r.dir.kind))

/-- The `header` line, second half: `PUT 0, h; wp <- 44`. A refused PUT stops the run (43_stream_sequences.md R184). -/
def turnPutHeader (r : StreamRun) (s : State) : Host.Outcome State Fault Refusal :=
  match s.resultBytes with
  | none => .refused .noResult
  | some h =>
    match s.store 0 h with
    | some t => .next ((t.setAnswer (.put true)).setRun { r with wp := Config.hdrLen, phase := .loop })
    | none => .next ((s.setAnswer (.put false)).setRun { r with phase := .failed (.sinkWrite 0) })

/-- The `loop` line's test and read: issue the unit's command, or leave the loop on a short read, which is no error
(43_stream_sequences.md R172, R173, R178, R183). -/
def turnLoop (r : StreamRun) (s : State) : State :=
  match (r.srcRead r.dir.readSize).bind (unitCommand r.dir) with
  | some i => (s.setRun { r with rp := r.rp + r.dir.readSize, phase := .putUnit }).issue (encode i)
  | none => s.setRun { r with phase := .patch }

/-- The `loop` line's PUT and count. A refused PUT stops the run (R184); a payload over 0xFFFFFFDB bytes is refused by
name (R187). -/
def turnPutUnit (r : StreamRun) (s : State) : Host.Outcome State Fault Refusal :=
  match s.resultBytes with
  | none => .refused .noResult
  | some unit =>
    match s.store r.wp unit with
    | some t =>
      if Config.maxCount < r.cnt.toNat + r.dir.writeSize then .refused .payloadTooLong
      else .next ((t.setAnswer (.put true)).setRun
        { r with wp := r.wp + r.dir.writeSize, cnt := r.cnt + BitVec.ofNat 32 r.dir.writeSize, phase := .loop })
    | none => .next ((s.setAnswer (.put false)).setRun { r with phase := .failed (.sinkWrite r.wp) })

/-- The `patch` line: issue HDR_PATCH with the counter. -/
def turnPatch (r : StreamRun) (s : State) : State :=
  (s.setRun { r with phase := .finish }).issue (encode (.hdrPatch r.cnt))

/-- The host's reading of the response to HDR_PATCH: a refused write is passed on as fatal
(43_stream_sequences.md R184). -/
def patchOutcome : Response → Phase
  | .ok _ => .done
  | .fault (.sinkWrite off) => .failed (.sinkWrite off)
  | .fault c => .failed (.patchFault c)

/-- Take the response to HDR_PATCH and end the run. -/
def turnFinish (r : StreamRun) (s : State) : Host.Outcome State Fault Refusal :=
  match s.respPort with
  | some resp => .next (s.setRun { r with phase := patchOutcome resp })
  | none => .refused .noResult

/-- One line of a sequence's pseudocode. After a completed run the host takes its next pending action; after a failed one
it issues nothing more (43_stream_sequences.md R184). -/
def streamTurn (r : StreamRun) (s : State) : Host.Outcome State Fault Refusal :=
  match r.phase with
  | .skip => .next (turnSkip r s)
  | .header => .next (turnHeader r s)
  | .putHeader => turnPutHeader r s
  | .loop => .next (turnLoop r s)
  | .putUnit => turnPutUnit r s
  | .patch => .next (turnPatch r s)
  | .finish => turnFinish r s
  | .done => runPending s
  | .failed e => .fault (.runFailed e)

/-- The host's turn. -/
def hostTurn (s : State) : Host.Outcome State Fault Refusal :=
  match s.host.run with
  | some r => streamTurn r s
  | none => runPending s

end Sys2Proof.Machine
end

