-- ==== Sys2Proof/Machine/Step.lean ====
section
/-! DEFINITION. One step: the block's turn if a command is in flight, the host's turn otherwise (20_memory.md R51;
70_reset_and_hazards.md R254). -/

namespace Sys2Proof.Machine

/-- One step of the machine. -/
def step (s : State) : Host.Outcome State Fault Refusal :=
  match s.cmdPort with
  | some w => blockTurn w s
  | none => hostTurn s

/-- `s` with the word on the command port, so that the next step executes it: the hand-over of a command by the host
(70_reset_and_hazards.md R258 row 1; notes/assumptions/4.md). -/
def State.withFetchWord (s : State) (nbits w : Nat) : State := s.issue (tableWord nbits w)

end Sys2Proof.Machine
end

