-- ==== Sys2Proof/Machine/Script.lean ====
section
/-! DEFINITION. The command-script syntax (30_encoding.md R86, R87): one line of text to host actions. Text is a list of
characters, so that the kernel can evaluate it. Points the spec leaves open (digit case, blanks, a plus sign and others) are
DESIGN CHOICE, notes/assumptions/16.md. -/

namespace Sys2Proof.Machine

/-- Blank characters between tokens. -/
def isBlank (c : Char) : Bool := c == ' ' || c == '\t'

/-- The text before `;`: the rest is a comment (30_encoding.md R86). -/
def stripComment : List Char → List Char
  | [] => []
  | c :: cs => if c == ';' then [] else c :: stripComment cs

/-- Put a finished token, if there is one, before the tokens that follow. -/
def pushToken (tok : List Char) (rest : List (List Char)) : List (List Char) :=
  if tok.isEmpty then rest else tok.reverse :: rest

/-- Split into tokens at blanks; a comma is a token of its own. `tok` is the token read so far, reversed. -/
def tokensFrom (tok : List Char) : List Char → List (List Char)
  | [] => pushToken tok []
  | c :: cs =>
    if isBlank c then pushToken tok (tokensFrom [] cs)
    else if c == ',' then pushToken tok ([','] :: tokensFrom [] cs)
    else tokensFrom (c :: tok) cs

/-- The tokens of a line. -/
def tokens (line : List Char) : List (List Char) := tokensFrom [] (stripComment line)

/-- The value of a hexadecimal digit, of either case. -/
def hexDigit (c : Char) : Option Nat :=
  if '0'.toNat ≤ c.toNat ∧ c.toNat ≤ '9'.toNat then some (c.toNat - '0'.toNat)
  else if 'A'.toNat ≤ c.toNat ∧ c.toNat ≤ 'F'.toNat then some (c.toNat - 'A'.toNat + 10)
  else if 'a'.toNat ≤ c.toNat ∧ c.toNat ≤ 'f'.toNat then some (c.toNat - 'a'.toNat + 10)
  else none

/-- Read digits of a base, most significant first, after the value `acc`. -/
def digitsFrom (base acc : Nat) : List Char → Option Nat
  | [] => some acc
  | c :: cs =>
    match hexDigit c with
    | some d => if d < base then digitsFrom base (acc * base + d) cs else none
    | none => none

/-- A number of at least one digit. -/
def digits (base : Nat) : List Char → Option Nat
  | [] => none
  | c :: cs => digitsFrom base 0 (c :: cs)

/-- A `0x` hexadecimal number. -/
def hexNumber : List Char → Option Nat
  | '0' :: 'x' :: ds => digits 16 ds
  | _ => none

/-- An unsigned number: decimal, or hexadecimal after `0x` (30_encoding.md R86). -/
def unsignedNumber (tok : List Char) : Option Nat :=
  match hexNumber tok with
  | some n => some n
  | none => digits 10 tok

/-- Keep a number that is below a bound. -/
def below (bound : Nat) (n : Option Nat) : Option Nat := n.bind (fun k => if k < bound then some k else none)

/-- `<sample>`: a signed decimal `x`, which assembles to `bits_16(x)`, or a `0x` hexadecimal 16-bit value
(30_encoding.md R86). R86 does not say whether a signed decimal may carry a plus sign; here it may not (DESIGN CHOICE,
notes/assumptions/16.md). -/
def parseSample : List Char → Option Sample
  | '-' :: ds => (below 32769 (digits 10 ds)).map (fun k : Nat => bits16 (-(k : Int)))
  | '0' :: 'x' :: ds => (below 65536 (digits 16 ds)).map (BitVec.ofNat 16)
  | ds => (below 32768 (digits 10 ds)).map (fun k : Nat => bits16 k)

/-- `<code>`: a `0x` hexadecimal 8-bit value (30_encoding.md R86). -/
def parseCode (tok : List Char) : Option Code := (below 256 (hexNumber tok)).map (BitVec.ofNat 8)

/-- `PCM` or `MULAW` (30_encoding.md R86). -/
def parseKind (tok : List Char) : Option Kind :=
  if tok = ['P', 'C', 'M'] then some .pcm
  else if tok = ['M', 'U', 'L', 'A', 'W'] then some .mulaw
  else none

/-- `<n>`: an unsigned decimal or `0x` hexadecimal 32-bit value (30_encoding.md R86). -/
def parseCount (tok : List Char) : Option Count := (below (2 ^ 32) (unsignedNumber tok)).map (BitVec.ofNat 32)

/-- The mnemonics, each with the source's name for the operation as an alias (30_encoding.md R86). -/
def isEnc (tok : List Char) : Bool := tok == ['E', 'N', 'C'] || tok == ['E', 'n', 'c', 'o', 'd', 'e']

/-- `DEC` or `Decode`. -/
def isDec (tok : List Char) : Bool := tok == ['D', 'E', 'C'] || tok == ['D', 'e', 'c', 'o', 'd', 'e']

/-- `HDR_BUILD` or `buildHeader`. -/
def isHdrBuild (tok : List Char) : Bool :=
  tok == ['H', 'D', 'R', '_', 'B', 'U', 'I', 'L', 'D'] || tok == ['b', 'u', 'i', 'l', 'd', 'H', 'e', 'a', 'd', 'e', 'r']

/-- `HDR_PATCH` or `patchSizes`. -/
def isHdrPatch (tok : List Char) : Bool :=
  tok == ['H', 'D', 'R', '_', 'P', 'A', 'T', 'C', 'H'] || tok == ['p', 'a', 't', 'c', 'h', 'S', 'i', 'z', 'e', 's']

/-- A line of one of the four commands (30_encoding.md R86). -/
def parseCommand (mnemonic operand : List Char) : Option Instr :=
  if isEnc mnemonic then (parseSample operand).map .enc
  else if isDec mnemonic then (parseCode operand).map .dec
  else if isHdrBuild mnemonic then (parseKind operand).map .hdrBuild
  else if isHdrPatch mnemonic then (parseCount operand).map .hdrPatch
  else none

/-- A two-digit hexadecimal byte of a byte sequence (00_scope.md R14). -/
def parseByte : List Char → Option Byte
  | [h, l] => (digits 16 [h, l]).map (BitVec.ofNat 8)
  | _ => none

/-- A byte sequence, lowest offset first (00_scope.md R14). -/
def parseBytes : List (List Char) → Option (List Byte)
  | [] => some []
  | t :: ts =>
    match parseByte t, parseBytes ts with
    | some b, some bs => some (b :: bs)
    | _, _ => none

/-- What stands after `PUT <off>,`: `RESULT` or at least one byte (30_encoding.md R87). -/
def parsePut (off : Nat) : List (List Char) → Option HostAction
  | [] => none
  | t :: ts =>
    if t = ['R', 'E', 'S', 'U', 'L', 'T'] ∧ ts = [] then some (.putResult off)
    else (parseBytes (t :: ts)).map (.put off)

/-- The host action of a line's tokens; `some none` is a line with no action (blank, or a comment). -/
def parseTokens : List (List Char) → Option (Option HostAction)
  | [] => some none
  | [t] => if t = ['R', 'E', 'S', 'E', 'T'] then some (some .reset) else none
  | [m, operand] => (parseCommand m operand).map (fun i => some (.issue (encode i)))
  | m :: off :: comma :: rest =>
    if m = ['P', 'U', 'T'] ∧ comma = [','] then
      ((unsignedNumber off).bind (fun k => parsePut k rest)).map some
    else none

/-- Assemble one line of a script (30_encoding.md R86, R87); `none` is a line that is not of the syntax. -/
def assembleLine (line : List Char) : Option (Option HostAction) := parseTokens (tokens line)

/-- Assemble a script, one line after the other. -/
def assemble : List (List Char) → Option (List HostAction)
  | [] => some []
  | l :: ls =>
    match assembleLine l, assemble ls with
    | some (some a), some as => some (a :: as)
    | some none, some as => some as
    | _, _ => none

end Sys2Proof.Machine
end

