-- ==== Sys2Proof/Safety.lean ====
section
/-! DEFINITION. What claims are stated in: the invariants of the machine, and small readings of a state and of an
outcome. -/

namespace Sys2Proof.Machine

/-- The frame store is in its canonical form, lies inside FRAME_CAP, and FRAME_CAP is allowed
(10_state.md R25; 00_scope.md R9). -/
abbrev State.FrameInv (s : State) : Prop :=
  s.frame.wf ∧ (∀ c ∈ s.frame, c.1 < s.sink.cap) ∧ Config.hdrLen ≤ s.sink.cap

/-- A command in flight has no response yet (70_reset_and_hazards.md R254; 10_state.md R30). -/
abbrev State.PortInv (s : State) : Prop := s.cmdPort.isSome = true → s.respPort = none

/-- The offsets of the two size fields: 4 to 7 and 40 to 43 (42_wave_header.md R150). -/
abbrev inSizeFields (a : Nat) : Prop := (4 ≤ a ∧ a < 8) ∨ (40 ≤ a ∧ a < 44)

/-- The next state of an outcome, if it has one. -/
def nextOf : Host.Outcome State Fault Refusal → Option State
  | .next s => some s
  | .fault _ => none
  | .refused _ => none

/-- The response after an outcome, if there is a next state with one. -/
def responseOf (o : Host.Outcome State Fault Refusal) : Option Response := (nextOf o).bind State.respPort

/-- The sink accepts both writes of HDR_PATCH (20_memory.md R46; 42_wave_header.md R150). -/
abbrev Sink.acceptsPatch (k : Sink) : Prop := k.accepts 40 4 = true ∧ k.accepts 4 4 = true

/-- Run `k` steps, stopping at the first fault or refusal. -/
def runSteps : Nat → State → Host.Outcome State Fault Refusal
  | 0, s => .next s
  | k + 1, s =>
    match step s with
    | .next t => runSteps k t
    | .fault r => .fault r
    | .refused r => .refused r

/-- The samples of a little-endian stream; a last odd byte is dropped (43_stream_sequences.md R172, R173). -/
def samplesOf : List Byte → List Sample
  | b0 :: b1 :: rest => sampleOfBytes b0 b1 :: samplesOf rest
  | _ => []

/-- A header template with both size fields filled in for `n` payload bytes (42_wave_header.md R150;
43_stream_sequences.md R174, R180). -/
def patchedHeader (kind : Kind) (n : Nat) : List Byte :=
  (template kind).take 4 ++ leBytes 4 (n + 36) ++ ((template kind).drop 8).take 32 ++ leBytes 4 n

/-- The number that digits of a base stand for, most significant first (30_encoding.md R86). -/
def numeral (base : Nat) (ds : List Nat) : Nat := ds.foldl (fun acc d => acc * base + d) 0

/-- The characters of digits, most significant first, the letters in upper or in lower case. -/
def digitChars (upper : Bool) (ds : List Nat) : List Char :=
  ds.map (fun d => if upper then (Nat.digitChar d).toUpper else Nat.digitChar d)

/-- The line hands the word to the command port. -/
abbrev assemblesTo (line : List Char) (w : CmdWord) : Prop := assembleLine line = some (some (.issue w))

/-- The host is between actions: no command in flight, no stream run under way. -/
abbrev State.hostFree (s : State) : Prop :=
  s.cmdPort = none ∧ (s.host.run = none ∨ ∃ r, s.host.run = some r ∧ r.phase = .done)

end Sys2Proof.Machine
end

