-- ==== Sys2Proof/Certificates/Slice0/Obligations.lean ====
section
/-! DEFINITION. The statements for the provers, each a property of the machine that a rule of the spec gives or from which
it follows. Where a statement rests on a choice of the model's, its docstring names the log entry. -/

open Sys2Proof Sys2Proof.Machine

/-! ### Encoding -/

/-- Words written out from 30_encoding.md R81 decode to the commands they stand for, and four words of R84 are illegal
(95_test_vectors.md sections 2.1, 2.2, 2.5 to 2.7). -/
def Obligations.SpecWordsDecode : Prop :=
  decode 0b0000000100000000000000000000001111101000#40 = .ok (.enc 1000#16) ∧
  decode 0b0000000100000000000000001111110000011000#40 = .ok (.enc 0xFC18#16) ∧
  decode 0b0000001000000000000000000000000010101111#40 = .ok (.dec 0xAF#8) ∧
  decode 0b0000001100000000000000000000000000000000#40 = .ok (.hdrBuild .pcm) ∧
  decode 0b0000001100000000000000000000000000000001#40 = .ok (.hdrBuild .mulaw) ∧
  decode 0b0000010000010010001101000101011001111000#40 = .ok (.hdrPatch 0x12345678#32) ∧
  decode 0x0500000000#40 = .error (.unknownOpcode 0x05#8) ∧
  decode 0x0100010000#40 = .error (.reservedBits "ENC") ∧
  decode 0x0200000100#40 = .error (.reservedBits "DEC") ∧
  decode 0x0300000002#40 = .error (.reservedBits "HDR_BUILD")

/-- Decoding the word of any command gives that command back, with every operand at every value
(30_encoding.md R81, R82, R84). Every term of Instr is well-formed, so there is no hypothesis. -/
def Obligations.DecodeOfEncode : Prop := ∀ i : Instr, decode (encode i) = .ok i

/-- Each command has one word only: a word that decodes to a command is that command's encoding (30_encoding.md R81: no
don't-care bits). -/
def Obligations.EncodeOfDecode : Prop := ∀ (w : CmdWord) (i : Instr), decode w = .ok i → encode i = w

/-- The match and mask rows of 30_encoding.md R81 select exactly the words that decode to their command, and the operand
is the field the row names. -/
def Obligations.TableRowsSelectTheirCommands : Prop :=
  ∀ w : CmdWord,
    (w &&& 0xFFFFFF0000#40 = 0x0100000000#40 ↔ ∃ x, decode w = .ok (.enc x)) ∧
    (w &&& 0xFFFFFFFF00#40 = 0x0200000000#40 ↔ ∃ c, decode w = .ok (.dec c)) ∧
    (w &&& 0xFFFFFFFFFE#40 = 0x0300000000#40 ↔ ∃ k, decode w = .ok (.hdrBuild k)) ∧
    (w &&& 0xFF00000000#40 = 0x0400000000#40 ↔ ∃ n, decode w = .ok (.hdrPatch n)) ∧
    (∀ x, decode w = .ok (.enc x) → x = w.extractLsb' 0 16) ∧
    (∀ c, decode w = .ok (.dec c) → c = w.extractLsb' 0 8) ∧
    (∀ k, decode w = .ok (.hdrBuild k) → (k = .mulaw ↔ w.getLsbD 0 = true) ∧ (k = .pcm ↔ w.getLsbD 0 = false)) ∧
    (∀ n, decode w = .ok (.hdrPatch n) → n = w.extractLsb' 0 32)

/-- 30_encoding.md R84, 60_exceptions.md R204: a word is illegal exactly when its opcode is 0 or above 4, or a reserved
operand bit of ENC, DEC or HDR_BUILD is 1. The block answers an illegal word with Fault(IllegalCommand), which reports the
word (60_exceptions.md R201), and changes nothing; every other word is the word of a command. Two clauses are the model's
choice and no rule's: the command port is the fetch (DESIGN CHOICE notes/assumptions/3.md), and the model's own log notes
the cause (DESIGN CHOICE notes/assumptions/6.md, which 60_exceptions.md R203 allows). -/
def Obligations.IllegalWordsAnswerIllegalCommand : Prop :=
  ∀ (w : CmdWord) (s : State), s.cmdPort = some w →
    ((w.toNat / 2 ^ 32 = 0 ∨ 5 ≤ w.toNat / 2 ^ 32 ∨
        (w.toNat / 2 ^ 32 = 1 ∧ 2 ^ 16 ≤ w.toNat % 2 ^ 32) ∨
        (w.toNat / 2 ^ 32 = 2 ∧ 2 ^ 8 ≤ w.toNat % 2 ^ 32) ∨
        (w.toNat / 2 ^ 32 = 3 ∧ 2 ≤ w.toNat % 2 ^ 32)) →
      legalWord w = false ∧
      step s = .next { s with
        cmdPort := none
        respPort := some (.fault (.illegalCommand w))
        faultLog := .illegalCommand w :: s.faultLog }) ∧
    (¬(w.toNat / 2 ^ 32 = 0 ∨ 5 ≤ w.toNat / 2 ^ 32 ∨
        (w.toNat / 2 ^ 32 = 1 ∧ 2 ^ 16 ≤ w.toNat % 2 ^ 32) ∨
        (w.toNat / 2 ^ 32 = 2 ∧ 2 ^ 8 ≤ w.toNat % 2 ^ 32) ∨
        (w.toNat / 2 ^ 32 = 3 ∧ 2 ≤ w.toNat % 2 ^ 32)) →
      legalWord w = true ∧ ∃ i, decode w = .ok i ∧ step s = exec i { s with cmdPort := none })

/-! ### The step -/

/-- When the word on the command port decodes to a command, the step is that command on the state with the port emptied
(20_memory.md R51). The port is the model's fetch: notes/assumptions/3.md. -/
def Obligations.StepExecutesTheDecodedCommand : Prop :=
  ∀ (s : State) (w : CmdWord) (i : Instr),
    s.cmdPort = some w → decode w = .ok i → step s = exec i { s with cmdPort := none }

/-- Handing a command's word to the port makes the very next step execute it, whatever the host is doing
(70_reset_and_hazards.md R241, R258 row 1; notes/assumptions/4.md). -/
def Obligations.HandedOverCommandRunsNext : Prop :=
  ∀ (s : State) (i : Instr),
    step (s.withFetchWord 40 (encode i).toNat) = exec i { s with cmdPort := none, respPort := none }

/-- Every word of the command port, legal or not, is answered by one step: there is a response and the port is free again
(10_state.md R29: `exec` is total; 70_reset_and_hazards.md R254, R255). -/
def Obligations.EveryWordIsAnswered : Prop :=
  ∀ (s : State) (w : CmdWord), s.cmdPort = some w →
    ∃ t r, step s = .next t ∧ t.respPort = some r ∧ t.cmdPort = none

/-- An idle machine with nothing pending stays as it is. DESIGN CHOICE notes/assumptions/5.md (60_exceptions.md R205:
nothing happens except as the effect of a command). -/
def Obligations.IdleMachineStays : Prop :=
  ∀ s : State, s.hostFree → s.host.pending = [] → step s = .next s

/-! ### ENC -/

/-- 40_encode.md R100: ENC answers the code of the pseudocode for every sample and changes nothing else. The position is
the floor of the binary logarithm of the biased, clamped magnitude. The word has opcode 1 and zero reserved bits; with any
other reserved bits it is illegal. The sample -32768 rests on the spec's decision D7 (notes/assumptions/11.md). -/
def Obligations.EncAnswersTheSpecCode : Prop :=
  ∀ (x : Sample) (s : State),
    exec (.enc x) s = .next { s with respPort := some (.ok (.code (encodeSample x))) } ∧
    (let m := min (x.toInt.natAbs + 33) 8191
     (encodeSample x).toNat =
      255 - (128 * (if x.toInt < 0 then 1 else 0) + 16 * (Nat.log 2 m - 5) + m / 2 ^ (Nat.log 2 m - 4) % 16)) ∧
    decode (commandWord 0x01#8 (0#16 ++ x)) = .ok (.enc x) ∧
    (∀ r : BitVec 16, r ≠ 0#16 → ∃ e, decode (commandWord 0x01#8 (r ++ x)) = .error e)

/-- 40_encode.md R103: the scan gives the largest index in 5 to 12 whose bit is set, the floor of the binary logarithm for
32 to 8191, and 5 when none is set; the encoder always finds one. -/
def Obligations.ScanFindsTheLeadingBit : Prop :=
  (∀ m : Nat, 32 ≤ m → m ≤ 8191 →
    5 ≤ position m ∧ position m ≤ 12 ∧ m.testBit (position m) = true ∧
    (∀ j, position m < j → j ≤ 12 → m.testBit j = false) ∧
    2 ^ position m ≤ m ∧ m < 2 ^ (position m + 1) ∧ position m = Nat.log 2 m) ∧
  (∀ m : Nat, m < 32 → position m = 5) ∧
  (∀ x : Sample, 33 ≤ biasedOf x ∧ biasedOf x ≤ 8191)

/-- 40_encode.md R105, 30_encoding.md R71: the code is the complement of sign, position minus 5 and mantissa, which do
not overlap. -/
def Obligations.EncPacksAndComplements : Prop :=
  ∀ x : Sample,
    encodeSample x =
      ~~~(BitVec.ofNat 1 (encSign x.toInt) ++ BitVec.ofNat 3 (position (biasedOf x) - 5) ++
        BitVec.ofNat 4 (mantissaOf (biasedOf x))) ∧
    (encodeSample x).toNat =
      255 - (128 * encSign x.toInt + 16 * (position (biasedOf x) - 5) + mantissaOf (biasedOf x)) ∧
    ((encodeSample x).getLsbD 7 = true ↔ 0 ≤ x.toInt)

/-- 40_encode.md R104: the leading bit, the mantissa and the dropped bits make up the biased magnitude. -/
def Obligations.MantissaIsTruncation : Prop :=
  ∀ x : Sample, ∃ r, r < 2 ^ (position (biasedOf x) - 4) ∧
    biasedOf x = 2 ^ position (biasedOf x) + mantissaOf (biasedOf x) * 2 ^ (position (biasedOf x) - 4) + r

/-- 40_encode.md R107: the segment, the biased magnitude, the mantissa and the codes of every magnitude range. -/
def Obligations.EncFollowsTheSegmentTable : Prop :=
  ∀ x : Sample, ∀ row ∈
      [(0, 0, 30), (1, 31, 94), (2, 95, 222), (3, 223, 478), (4, 479, 990), (5, 991, 2014), (6, 2015, 4062),
       (7, 4063, 32768)],
    row.2.1 ≤ x.toInt.natAbs → x.toInt.natAbs ≤ row.2.2 →
      segmentOf (biasedOf x) = row.1 ∧
      2 ^ (row.1 + 5) ≤ biasedOf x ∧ biasedOf x < 2 ^ (row.1 + 6) ∧
      mantissaOf (biasedOf x) = (biasedOf x - 2 ^ (row.1 + 5)) / 2 ^ (row.1 + 1) ∧
      (0 ≤ x.toInt → 0xF0 - 16 * row.1 ≤ (encodeSample x).toNat ∧ (encodeSample x).toNat ≤ 0xFF - 16 * row.1) ∧
      (x.toInt < 0 → 0x70 - 16 * row.1 ≤ (encodeSample x).toNat ∧ (encodeSample x).toNat ≤ 0x7F - 16 * row.1 ∧
        (encodeSample x).toNat ≠ 0x7F)

/-- 40_encode.md R108: every magnitude from 7903 up has the largest-magnitude code of its sign: up to 8158 by
quantisation, from 8159 by the clamp. -/
def Obligations.EncSaturates : Prop :=
  ∀ x : Sample,
    (7903 ≤ x.toInt → encodeSample x = 0x80#8) ∧
    (x.toInt ≤ -7903 → encodeSample x = 0x00#8) ∧
    (7903 ≤ x.toInt.natAbs → x.toInt.natAbs ≤ 8158 →
      7936 ≤ biasedOf x ∧ biasedOf x = x.toInt.natAbs + 33 ∧ position (biasedOf x) = 12 ∧ mantissaOf (biasedOf x) = 15) ∧
    (8159 ≤ x.toInt.natAbs → biasedOf x = 8191 ∧ 8191 < x.toInt.natAbs + 33)

/-- 40_encode.md R109: ENC returns every code but 0x7F, which would be a negative zero. -/
def Obligations.EncReturnsAllCodesButNegativeZero : Prop :=
  ∀ c : Code, (∃ (x : Sample) (s : State), responseOf (exec (.enc x) s) = some (.ok (.code c))) ↔ c ≠ 0x7F#8

/-- 40_encode.md R110: negating a sample flips bit 7 of its code and nothing else; zero has the one code 0xFF. -/
def Obligations.EncSignSymmetry : Prop :=
  (∀ x y : Sample, x.toInt ≠ 0 → y.toInt = -x.toInt → encodeSample y = encodeSample x ^^^ 0x80#8) ∧
  encodeSample 0#16 = 0xFF#8

/-- 40_encode.md R111: the decoded value never falls as the sample rises; on each side of zero the stored code falls or
stays as the magnitude rises. -/
def Obligations.EncIsMonotone : Prop :=
  ∀ x y : Sample, x.toInt ≤ y.toInt →
    (decodeCode (encodeSample x)).toInt ≤ (decodeCode (encodeSample y)).toInt ∧
    (0 ≤ x.toInt → (encodeSample y).toNat ≤ (encodeSample x).toNat) ∧
    (y.toInt < 0 → (encodeSample x).toNat ≤ (encodeSample y).toNat)

/-- 40_encode.md R112, the spec's decision D7 (notes/assumptions/11.md): the sample -32768 has magnitude 32768 and the code
of -32767. The spec asks a claim about this sample to name D7. -/
def Obligations.EncOfTheMostNegativeSample : Prop :=
  magnitude (signed16 0x8000#16) = 32768 ∧ biasedOf 0x8000#16 = 8191 ∧ position 8191 = 12 ∧ segmentOf 8191 = 7 ∧
  mantissaOf 8191 = 15 ∧ logicalOf 0x8000#16 = 0xFF#8 ∧
  (∀ s : State, exec (.enc 0x8000#16) s = .next { s with respPort := some (.ok (.code 0x00#8)) }) ∧
  encodeSample 0x8001#16 = 0x00#8

/-! ### DEC -/

/-- 41_decode.md R120: DEC answers the sample of the pseudocode for every code and changes nothing else. The word has
opcode 2 and zero reserved bits; with any other reserved bits it is illegal. -/
def Obligations.DecAnswersTheSpecSample : Prop :=
  ∀ (c : Code) (s : State),
    exec (.dec c) s = .next { s with respPort := some (.ok (.sample (decodeCode c))) } ∧
    (let logical := 255 - c.toNat
     let seg := logical / 16 % 8
     let mant := logical % 16
     let mag := ((1 <<< (seg + 5)) ||| (mant <<< (seg + 1)) ||| (1 <<< seg)) - 33
     (decodeCode c).toInt = if 128 ≤ logical then -(mag : Int) else (mag : Int)) ∧
    decode (commandWord 0x02#8 (0#24 ++ c)) = .ok (.dec c) ∧
    (∀ r : BitVec 24, r ≠ 0#24 → ∃ e, decode (commandWord 0x02#8 (r ++ c)) = .error e)

/-- 41_decode.md R124, R127: the closed form of the magnitude DEC answers, and the even spacing of the outputs inside a
segment. -/
def Obligations.DecClosedForm : Prop :=
  ∀ (c : Code) (s : State),
    ∃ y, exec (.dec c) s = .next { s with respPort := some (.ok (.sample y)) } ∧
      y.toInt.natAbs = (2 * ((255 - c.toNat) % 16) + 33) * 2 ^ ((255 - c.toNat) / 16 % 8) - 33 ∧
      ∀ d : Code, c.toNat = d.toNat + 1 → c.toNat / 16 = d.toNat / 16 →
        ∃ z, exec (.dec d) s = .next { s with respPort := some (.ok (.sample z)) } ∧
          z.toInt.natAbs = y.toInt.natAbs + 2 ^ ((255 - c.toNat) / 16 % 8 + 1)

/-- 41_decode.md R128: flipping bit 7 of a code negates its sample, and so negating a sample negates its round trip. -/
def Obligations.DecSignSymmetry : Prop :=
  (∀ c : Code, (decodeCode (c ^^^ 0x80#8)).toInt = -(decodeCode c).toInt) ∧
  (∀ x y : Sample, y.toInt = -x.toInt →
    (decodeCode (encodeSample y)).toInt = -(decodeCode (encodeSample x)).toInt)

/-- 41_decode.md R129: exactly the two codes 0xFF and 0x7F decode to zero. -/
def Obligations.DecHasTwoZeros : Prop :=
  ∀ (c : Code) (s : State),
    responseOf (exec (.dec c) s) = some (.ok (.sample 0x0000#16)) ↔ c = 0xFF#8 ∨ c = 0x7F#8

/-- 41_decode.md R130: the outputs lie between -8031 and 8031, both are reached, and two codes share an output only at
zero. -/
def Obligations.DecRange : Prop :=
  ∀ s : State,
    (∀ c, ∃ y, exec (.dec c) s = .next { s with respPort := some (.ok (.sample y)) } ∧
      -8031 ≤ y.toInt ∧ y.toInt ≤ 8031) ∧
    responseOf (exec (.dec 0x80#8) s) = some (.ok (.sample 0x1F5F#16)) ∧
    responseOf (exec (.dec 0x00#8) s) = some (.ok (.sample 0xE0A1#16)) ∧
    (∀ c d : Code, c ≠ d → responseOf (exec (.dec c) s) = responseOf (exec (.dec d) s) →
      responseOf (exec (.dec c) s) = some (.ok (.sample 0#16)))

/-- 41_decode.md R131: without the clamp the round trip errs by at most half the segment's step; with it the error is the
magnitude less 8031. -/
def Obligations.RoundTripErrorBound : Prop :=
  (∀ x : Sample, x.toInt.natAbs ≤ 8158 →
    ((decodeCode (encodeSample x)).toInt - x.toInt).natAbs ≤ 2 ^ segmentOf (biasedOf x)) ∧
  (∀ x : Sample, 8159 ≤ x.toInt.natAbs →
    ((decodeCode (encodeSample x)).toInt - x.toInt).natAbs = x.toInt.natAbs - 8031) ∧
  (decodeCode (encodeSample 1#16)).toInt = 2

/-- 41_decode.md R132: ENC of what DEC answered gives the code back, but for 0x7F, which gives 0xFF; and DEC of that once
more answers the first sample again. -/
def Obligations.ReencodingIsTheIdentity : Prop :=
  ∀ (c : Code) (s t : State) (y : Sample), exec (.dec c) s = .next t → t.respPort = some (.ok (.sample y)) →
    ∃ u v, exec (.enc y) t = .next u ∧
      u.respPort = some (.ok (.code (if c = 0x7F#8 then 0xFF#8 else c))) ∧
      exec (.dec (encodeSample y)) u = .next v ∧ v.respPort = some (.ok (.sample y))

/-! ### HDR_BUILD -/

/-- 42_wave_header.md R141 to R143: HDR_BUILD answers the 44 bytes of the kind's template and changes nothing else. Its
word has opcode 3 and 31 zero reserved bits; with any other reserved bits it is illegal. Bytes 16 to 35 rest on layout
facts the spec supplies from general knowledge (notes/assumptions/12.md). -/
def Obligations.HdrBuildAnswersTheTemplate : Prop :=
  ∀ s : State,
    exec (.hdrBuild .pcm) s = .next { s with respPort := some (.ok (.header
      [0x52#8, 0x49#8, 0x46#8, 0x46#8, 0x00#8, 0x00#8, 0x00#8, 0x00#8, 0x57#8, 0x41#8, 0x56#8, 0x45#8,
       0x66#8, 0x6D#8, 0x74#8, 0x20#8, 0x10#8, 0x00#8, 0x00#8, 0x00#8, 0x01#8, 0x00#8, 0x01#8, 0x00#8,
       0x40#8, 0x1F#8, 0x00#8, 0x00#8, 0x80#8, 0x3E#8, 0x00#8, 0x00#8, 0x02#8, 0x00#8, 0x10#8, 0x00#8,
       0x64#8, 0x61#8, 0x74#8, 0x61#8, 0x00#8, 0x00#8, 0x00#8, 0x00#8])) } ∧
    exec (.hdrBuild .mulaw) s = .next { s with respPort := some (.ok (.header
      [0x52#8, 0x49#8, 0x46#8, 0x46#8, 0x00#8, 0x00#8, 0x00#8, 0x00#8, 0x57#8, 0x41#8, 0x56#8, 0x45#8,
       0x66#8, 0x6D#8, 0x74#8, 0x20#8, 0x10#8, 0x00#8, 0x00#8, 0x00#8, 0x07#8, 0x00#8, 0x01#8, 0x00#8,
       0x40#8, 0x1F#8, 0x00#8, 0x00#8, 0x40#8, 0x1F#8, 0x00#8, 0x00#8, 0x01#8, 0x00#8, 0x08#8, 0x00#8,
       0x64#8, 0x61#8, 0x74#8, 0x61#8, 0x00#8, 0x00#8, 0x00#8, 0x00#8])) } ∧
    (∀ k : Kind, decode (commandWord 0x03#8 (0#31 ++ k.bit)) = .ok (.hdrBuild k) ∧
      ∀ r : BitVec 31, r ≠ 0#31 → ∃ e, decode (commandWord 0x03#8 (r ++ k.bit)) = .error e)

/-- 30_encoding.md R76, R77: every field of both templates, read little-endian at its offset, and the audit equations. -/
def Obligations.TemplateFieldsHoldTheSpecValues : Prop :=
  ∀ k : Kind,
    let field := fun off n => leValue (((template k).drop off).take n)
    (template k).length = 44 ∧
    (template k).take 4 = [0x52#8, 0x49#8, 0x46#8, 0x46#8] ∧ field 4 4 = 0 ∧
    ((template k).drop 8).take 4 = [0x57#8, 0x41#8, 0x56#8, 0x45#8] ∧
    ((template k).drop 12).take 4 = [0x66#8, 0x6D#8, 0x74#8, 0x20#8] ∧
    field 16 4 = Config.subchunk1Size ∧
    field 20 2 = (match k with | .pcm => Config.fmtPcm | .mulaw => Config.fmtMulaw) ∧
    field 22 2 = Config.numChannels ∧ field 24 4 = Config.sampleRate ∧
    field 34 2 = (match k with | .pcm => 16 | .mulaw => 8) ∧
    field 28 4 = field 24 4 * field 22 2 * field 34 2 / 8 ∧
    field 32 2 = field 22 2 * field 34 2 / 8 ∧
    ((template k).drop 36).take 4 = [0x64#8, 0x61#8, 0x74#8, 0x61#8] ∧ field 40 4 = 0

/-- 42_wave_header.md R144, 70_reset_and_hazards.md R244: what ENC, DEC and HDR_BUILD answer depends on no state, so no
earlier command, not even HDR_PATCH, changes it. -/
def Obligations.PureCommandsAnswerAlike : Prop :=
  ∀ (i : Instr) (s t : State), (∀ n, i ≠ .hdrPatch n) →
    ∃ r, responseOf (exec i s) = some r ∧ responseOf (exec i t) = some r

/-! ### HDR_PATCH -/

/-- 42_wave_header.md R150 to R152, 60_exceptions.md R201, R206: HDR_PATCH by its pseudocode. It refuses a count above
0xFFFFFFDB before writing anything; else it writes `n` at 40 and then `n + 36` at 4, and a refused write ends it there with
nothing rolled back. With FRAME_CAP of at least 44 and SinkRefuses at its default neither write is refused. Every word with
opcode 4 is legal. That `faultLog` grows by the cause of each fault is the model's choice and no rule's (DESIGN CHOICE
notes/assumptions/6.md, which 60_exceptions.md R203 allows). -/
def Obligations.HdrPatchFollowsItsPseudocode : Prop :=
  ∀ (n : Count) (s : State),
    decode (commandWord 0x04#8 n) = .ok (.hdrPatch n) ∧
    (0xFFFFFFDB < n.toNat →
      exec (.hdrPatch n) s = .next { s with
        respPort := some (.fault (.patchRange n)), faultLog := .patchRange n :: s.faultLog }) ∧
    (n.toNat ≤ 0xFFFFFFDB → s.sink.accepts 40 4 = false →
      exec (.hdrPatch n) s = .next { s with
        respPort := some (.fault (.sinkWrite 40)), faultLog := .sinkWrite 40 :: s.faultLog }) ∧
    (n.toNat ≤ 0xFFFFFFDB → s.sink.accepts 40 4 = true → s.sink.accepts 4 4 = false →
      ∃ t, exec (.hdrPatch n) s = .next t ∧
        t = { s with
          frame := t.frame, respPort := some (.fault (.sinkWrite 4)), faultLog := .sinkWrite 4 :: s.faultLog } ∧
        t.memRead 40 4 = some n.toNat ∧
        ∀ a, ¬(40 ≤ a ∧ a < 44) → t.frame.read a = s.frame.read a) ∧
    (n.toNat ≤ 0xFFFFFFDB → s.sink.accepts 40 4 = true → s.sink.accepts 4 4 = true →
      ∃ t, exec (.hdrPatch n) s = .next t ∧
        t = { s with frame := t.frame, respPort := some (.ok .nothing) } ∧
        t.memRead 40 4 = some n.toNat ∧ t.memRead 4 4 = some (n.toNat + 36) ∧
        ∀ a, ¬inSizeFields a → t.frame.read a = s.frame.read a) ∧
    (44 ≤ s.sink.cap → s.sink.refused = [] → s.sink.accepts 40 4 = true ∧ s.sink.accepts 4 4 = true)

/-- 42_wave_header.md R154 with R151, R152: after any HDR_PATCH `a`, accepted or faulted and whatever the sink refuses, an
in-range HDR_PATCH `b` answers and leaves the store as it alone would; if `a` was accepted, all of the machine is as `b`
alone leaves it. An out-of-range `b` writes nothing (R151), so the store of `a` stays. HDR_PATCH `a` twice leaves the store
of `a` once. What `faultLog` holds (the fault of `a`, if it had one, and that of `b`) is the model's choice (DESIGN CHOICE
notes/assumptions/6.md). -/
def Obligations.SecondPatchReplacesTheFirst : Prop :=
  ∀ (a b : Count) (s t : State), exec (.hdrPatch a) s = .next t →
    (b.toNat ≤ 0xFFFFFFDB →
      ∃ u v, exec (.hdrPatch b) s = .next u ∧ exec (.hdrPatch b) t = .next v ∧
        v = { u with faultLog := v.faultLog }) ∧
    (b.toNat ≤ 0xFFFFFFDB → t.respPort = some (.ok .nothing) → exec (.hdrPatch b) t = exec (.hdrPatch b) s) ∧
    (0xFFFFFFDB < b.toNat →
      exec (.hdrPatch b) t =
        .next { t with respPort := some (.fault (.patchRange b)), faultLog := .patchRange b :: t.faultLog }) ∧
    ∃ v, exec (.hdrPatch a) t = .next v ∧ v.frame = t.frame ∧ v.respPort = t.respPort

/-- 20_memory.md R52: the two size writes touch different bytes, so the final store is the same in either order. -/
def Obligations.SizeWritesCommute : Prop :=
  ∀ (s : State) (v w : Nat), s.sink.acceptsPatch →
    ∃ t, (s.memWrite 40 4 v).bind (fun u => u.memWrite 4 4 w) = some t ∧
      (s.memWrite 4 4 w).bind (fun u => u.memWrite 40 4 v) = some t

/-! ### Frames -/

/-- The frame of every command (10_state.md R22, R27, R29; 42_wave_header.md R150): only HDR_PATCH changes the store, and
only at offsets 4 to 7 and 40 to 43, the two constant addresses it writes; the command port, the parameters and the host
are as before. `faultLog` is no state of the block, which keeps none (10_state.md R23, 60_exceptions.md R203): that it grows
by the cause answered, and only by that, is the model's choice (DESIGN CHOICE notes/assumptions/6.md). -/
def Obligations.CommandsChangeOnlyWhatTheirRulesName : Prop :=
  ∀ (i : Instr) (s t : State), exec i s = .next t →
    (∀ a, (∃ n, i = .hdrPatch n) ∧ inSizeFields a ∨ t.frame.read a = s.frame.read a) ∧
    ((∀ n, i ≠ .hdrPatch n) → t.frame = s.frame ∧ t.faultLog = s.faultLog) ∧
    t.cmdPort = s.cmdPort ∧ t.sink = s.sink ∧ t.host = s.host ∧
    (t.faultLog = s.faultLog ∨ ∃ c, t.respPort = some (.fault c) ∧ t.faultLog = c :: s.faultLog)

/-- 10_state.md R25, R27, R28; 42_wave_header.md R150; 60_exceptions.md R203: the block sees the sink and the word, and
nothing else: not the host, not an earlier response, not an earlier fault. It writes the frame store and never reads it: two
states with different stores get the same response, and each byte is either left as it was in both or written alike in both;
so equal stores stay equal. That the word lies on the command port is notes/assumptions/3.md. -/
def Obligations.BlockSeesOnlyStoreSinkAndWord : Prop :=
  ∀ (s s' : State) (w : CmdWord), s.cmdPort = some w → s'.cmdPort = some w → s.sink = s'.sink →
    ∃ t t', step s = .next t ∧ step s' = .next t' ∧ t.respPort = t'.respPort ∧
      (∀ a, (t.frame.read a = s.frame.read a ∧ t'.frame.read a = s'.frame.read a) ∨
        (t.frame.read a ≠ none ∧ t.frame.read a = t'.frame.read a)) ∧
      (s.frame = s'.frame → t.frame = t'.frame)

/-- 10_state.md R25, R29: a step that changes the frame store is an accepted HDR_PATCH or a turn of the host. -/
def Obligations.OnlyPatchAndHostWriteTheStore : Prop :=
  ∀ s t : State, step s = .next t → t.frame ≠ s.frame →
    s.cmdPort = none ∨ ∃ n : Count, s.cmdPort = some (encode (.hdrPatch n)) ∧ n.toNat ≤ 0xFFFFFFDB

/-! ### The frame store -/

/-- 20_memory.md R44: an accepted MemWrite stores the bytes of the value little-endian and changes no other byte and
nothing else. -/
def Obligations.MemWriteStoresLittleEndian : Prop :=
  ∀ (s : State) (addr n v : Nat), s.sink.accepts addr n = true →
    ∃ t, s.memWrite addr n v = some t ∧ t = { s with frame := t.frame } ∧
      (∀ k, k < n → t.frame.read (addr + k) = some (BitVec.ofNat 8 (v / 2 ^ (8 * k)))) ∧
      (∀ a, a < addr ∨ addr + n ≤ a → t.frame.read a = s.frame.read a)

/-- 20_memory.md R43: a read has a value exactly when every byte is written, and then it is the little-endian number of
those bytes. -/
def Obligations.MemReadIsLittleEndianOrNothing : Prop :=
  ∀ (s : State) (addr n : Nat),
    (s.memRead addr n = none ↔ ∃ k, k < n ∧ s.frame.read (addr + k) = none) ∧
    (∀ v, s.memRead addr n = some v →
      v < 2 ^ (8 * n) ∧ ∀ k, k < n → s.frame.read (addr + k) = some (BitVec.ofNat 8 (v / 2 ^ (8 * k))))

/-- 20_memory.md R46: the sink accepts a write iff it lies inside FRAME_CAP and SinkRefuses is false of it. -/
def Obligations.WriteAcceptance : Prop :=
  ∀ (s : State) (addr n v : Nat),
    (∃ t, s.memWrite addr n v = some t) ↔ addr + n ≤ s.sink.cap ∧ (addr, n) ∉ s.sink.refused

/-- 20_memory.md R58: FLEN is one past the highest written offset, and a store never lowers it or unwrites a byte. -/
def Obligations.StoresNeverTruncate : Prop :=
  (∀ (m : Memory) (a : Nat), m.read a ≠ none → a < m.flen) ∧
  (∀ m : Memory, m.flen = 0 ∨ m.read (m.flen - 1) ≠ none) ∧
  (∀ (s t : State) (addr : Nat) (bytes : List Byte), s.store addr bytes = some t →
    (∀ a, s.frame.read a ≠ none → t.frame.read a ≠ none) ∧
    t.frame.flen = max s.frame.flen (if bytes = [] then 0 else addr + bytes.length))

/-- 20_memory.md R57, 70_reset_and_hazards.md R250: a header stored over a frame wipes both size fields. -/
def Obligations.HeaderAfterPatchWipesTheSizes : Prop :=
  ∀ (s t : State) (k : Kind), s.store 0 (template k) = some t →
    t.memRead 4 4 = some 0 ∧ t.memRead 40 4 = some 0 ∧
    ∀ a, 44 ≤ a → t.frame.read a = s.frame.read a

/-! ### Invariants of every step -/

/-- The canonical form of the store, its bound FRAME_CAP and `44 <= FRAME_CAP` are kept by every step
(10_state.md R25, 00_scope.md R9). -/
def Obligations.StepKeepsTheStoreInvariant : Prop :=
  ∀ s t : State, s.FrameInv → step s = .next t → t.FrameInv

/-- A command in flight never has a response yet, and every step keeps that (70_reset_and_hazards.md R254). -/
def Obligations.StepKeepsOneCommandInFlight : Prop :=
  ∀ s t : State, s.PortInv → step s = .next t → t.PortInv

/-- The machine after reset meets both invariants, with an empty store and idle ports (10_state.md R30). The values of the
host and of FRAME_CAP at reset are choices: notes/assumptions/1.md, 4.md. -/
def Obligations.ResetMeetsTheInvariants : Prop :=
  State.reset.FrameInv ∧ State.reset.PortInv ∧ (∀ a, State.reset.frame.read a = none) ∧
  State.reset.cmdPort = none ∧ State.reset.respPort = none

/-- The open parameters never change: FRAME_CAP, SinkRefuses, ENC_SKIP, DEC_SKIP, SHORT_SKIP_IS_ERROR
(00_scope.md R9). -/
def Obligations.StepKeepsTheOpenParameters : Prop :=
  ∀ s t : State, step s = .next t → t.sink = s.sink ∧ t.host.params = s.host.params

/-- A written byte stays written until a RESET of the host (20_memory.md R44, R58; 70_reset_and_hazards.md R240, R243). -/
def Obligations.WrittenBytesStayWrittenUntilReset : Prop :=
  ∀ s t : State, step s = .next t →
    (∀ a, s.frame.read a ≠ none → t.frame.read a ≠ none) ∨
    (s.hostFree ∧ (∃ rest, s.host.pending = .reset :: rest) ∧ t.frame = [])

/-! ### Cause codes -/

/-- 60_exceptions.md R201 with the order of checks of R206: for every word on the command port the code, the cause, when it
is raised, the info it reports and the state it leaves. Code 0 is Ok, 1 IllegalCommand with the word, 2 PatchRange with the
count, 3 SinkWrite with the offset; only a refused write at 4 leaves something behind, the count at 40. That the word lies on
the command port is DESIGN CHOICE notes/assumptions/3.md. -/
def Obligations.ResponsesFollowTheCauseTable : Prop :=
  ∀ (s : State) (w : CmdWord), s.cmdPort = some w →
    ∃ t r, step s = .next t ∧ t.respPort = some r ∧
      if legalWord w = false then r = .fault (.illegalCommand w) ∧ r.number = 1#8 ∧ t.frame = s.frame
      else if w.toNat / 2 ^ 32 = 4 ∧ 0xFFFFFFDB < w.toNat % 2 ^ 32 then
        r = .fault (.patchRange (w.setWidth 32)) ∧ r.number = 2#8 ∧ t.frame = s.frame
      else if w.toNat / 2 ^ 32 = 4 ∧ s.sink.accepts 40 4 = false then
        r = .fault (.sinkWrite 40) ∧ r.number = 3#8 ∧ t.frame = s.frame
      else if w.toNat / 2 ^ 32 = 4 ∧ s.sink.accepts 4 4 = false then
        r = .fault (.sinkWrite 4) ∧ r.number = 3#8 ∧ t.memRead 40 4 = some (w.toNat % 2 ^ 32) ∧
          ∀ a, ¬(40 ≤ a ∧ a < 44) → t.frame.read a = s.frame.read a
      else (∃ v, r = .ok v) ∧ r.number = 0#8

/-! ### The host -/

/-- 30_encoding.md R87, 70_reset_and_hazards.md R240 and R258 rows 1 to 4: the host's turn on each of its actions. The word
goes to the port; PUT stores its bytes or is refused and changes no byte; a read gets the value or none; RESET gives the
reset values and leaves the host alone (DEDUCED notes/assumptions/10.md). That a read over an unwritten byte answers none and
the machine goes on is the model's choice: 20_memory.md R43 allows that or a fault of the observer (DESIGN CHOICE
notes/assumptions/20.md). -/
def Obligations.HostActionsActAsTheSpecSays : Prop :=
  ∀ (s : State) (rest : List HostAction), s.hostFree →
    (∀ w, s.host.pending = .issue w :: rest →
      step s = .next { s with
        cmdPort := some w, respPort := none, host := { s.host with pending := rest } }) ∧
    (∀ off bytes, s.host.pending = .put off bytes :: rest → s.sink.accepts off bytes.length = true →
      ∃ t, step s = .next t ∧
        t = { s with frame := t.frame, host := { s.host with pending := rest, answer := some (.put true) } } ∧
        (∀ k (h : k < bytes.length), t.frame.read (off + k) = some bytes[k]) ∧
        (∀ a, a < off ∨ off + bytes.length ≤ a → t.frame.read a = s.frame.read a)) ∧
    (∀ off bytes, s.host.pending = .put off bytes :: rest → s.sink.accepts off bytes.length = false →
      step s = .next { s with host := { s.host with pending := rest, answer := some (.put false) } }) ∧
    (∀ off n, s.host.pending = .read off n :: rest →
      step s = .next { s with host := { s.host with pending := rest, answer := some (.read (s.memRead off n)) } }) ∧
    (s.host.pending = .reset :: rest →
      step s = .next { s with
        frame := [], cmdPort := none, respPort := none, faultLog := [], host := { s.host with pending := rest } })

/-- 30_encoding.md R87: `PUT <off>, RESULT` is a PUT of the previous command's Ok bytes: 1 for ENC, 2 low byte first for
DEC, 44 for HDR_BUILD. With none it is refused by name (DESIGN CHOICE notes/assumptions/7.md; after a RESET, 23.md). -/
def Obligations.PutResultStoresThePreviousBytes : Prop :=
  ∀ (s : State) (off : Nat) (rest : List HostAction), s.hostFree → s.host.pending = .putResult off :: rest →
    (∀ c, s.respPort = some (.ok (.code c)) →
      step s = step { s with host := { s.host with pending := .put off [c] :: rest } }) ∧
    (∀ y, s.respPort = some (.ok (.sample y)) →
      step s = step { s with
        host := { s.host with pending := .put off [y.extractLsb' 0 8, y.extractLsb' 8 8] :: rest } }) ∧
    (∀ h, s.respPort = some (.ok (.header h)) →
      step s = step { s with host := { s.host with pending := .put off h :: rest } }) ∧
    ((s.respPort = none ∨ s.respPort = some (.ok .nothing) ∨ ∃ c, s.respPort = some (.fault c)) →
      step s = .refused .noResult)

/-- 43_stream_sequences.md R174 (by R171 to R173): EncodeStream on a fresh store with room for its result ends, after
finitely many steps, with the µ-law header, both size fields right, and one code per sample. -/
def Obligations.EncodeStreamWritesTheMulawFrame : Prop :=
  ∀ (s : State) (src : List Byte) (rest : List HostAction),
    s.hostFree → s.frame = [] → s.host.pending = .encodeStream (some src) :: rest →
    (s.host.params.encSkip ≤ src.length ∨ s.host.params.shortSkipIsError = false) →
    s.sink.refused = [] → 44 + (src.length - s.host.params.encSkip) / 2 ≤ s.sink.cap →
    (src.length - s.host.params.encSkip) / 2 ≤ 0xFFFFFFDB →
    ∃ k t r, runSteps k s = .next t ∧ t.host.run = some r ∧ r.phase = .done ∧ t.host.pending = rest ∧
      r.cnt.toNat = (src.length - s.host.params.encSkip) / 2 ∧
      t.frame.flen = 44 + (src.length - s.host.params.encSkip) / 2 ∧
      t.frameBytes = some (patchedHeader .mulaw ((src.length - s.host.params.encSkip) / 2) ++
        (samplesOf (src.drop s.host.params.encSkip)).map encodeSample)

/-- 43_stream_sequences.md R180 (by R177 to R179): DecodeStream on a fresh store with room for its result ends, after
finitely many steps, with the PCM header, both size fields right, and two bytes per code, low byte first. -/
def Obligations.DecodeStreamWritesThePcmFrame : Prop :=
  ∀ (s : State) (src : List Byte) (rest : List HostAction),
    s.hostFree → s.frame = [] → s.host.pending = .decodeStream (some src) :: rest →
    (s.host.params.decSkip ≤ src.length ∨ s.host.params.shortSkipIsError = false) →
    s.sink.refused = [] → 44 + 2 * (src.length - s.host.params.decSkip) ≤ s.sink.cap →
    2 * (src.length - s.host.params.decSkip) ≤ 0xFFFFFFDB →
    ∃ k t r, runSteps k s = .next t ∧ t.host.run = some r ∧ r.phase = .done ∧ t.host.pending = rest ∧
      r.cnt.toNat = 2 * (src.length - s.host.params.decSkip) ∧
      t.frame.flen = 44 + 2 * (src.length - s.host.params.decSkip) ∧
      t.frameBytes = some (patchedHeader .pcm (2 * (src.length - s.host.params.decSkip)) ++
        (src.drop s.host.params.decSkip).flatMap (fun c => le16 (decodeCode c)))

/-- 43_stream_sequences.md R181: a source shorter than its prefix is an error when the host takes it as one, and then the
store stays untouched; otherwise the run goes on to the header step at the end of the source. That the read position has not
moved when the error is reported is the model's choice (DESIGN CHOICE notes/assumptions/24.md), and so is that the skip line
is one turn (DESIGN CHOICE notes/assumptions/17.md). -/
def Obligations.ShortSourceFollowsTheParameter : Prop :=
  ∀ (s : State) (r : StreamRun), s.cmdPort = none → s.host.run = some r → r.phase = .skip →
    r.src.length < s.host.params.skipOf r.dir →
    (s.host.params.shortSkipIsError = true →
      step s = .next { s with host := { s.host with run := some { r with phase := .failed .shortSkip } } }) ∧
    (s.host.params.shortSkipIsError = false →
      step s = .next { s with host := { s.host with run := some { r with rp := r.src.length, phase := .header } } })

/-- 43_stream_sequences.md R182: a stream that cannot be opened stops the operation before any byte is written and any
command is issued; the host then stops (notes/assumptions/9.md, 21.md). -/
def Obligations.UnopenedStreamNeverStarts : Prop :=
  ∀ (s : State) (rest : List HostAction), s.hostFree →
    (s.host.pending = .encodeStream none :: rest ∨ s.host.pending = .decodeStream none :: rest) →
    ∃ t, step s = .next t ∧ t.frame = s.frame ∧ t.cmdPort = none ∧ t.respPort = s.respPort ∧
      step t = .fault (.runFailed .streamOpen)

/-- 43_stream_sequences.md R184: a refused PUT of a run stops it at once with SinkWrite, changes no byte, and no further
command is issued. A refused write inside the final HDR_PATCH is reported by the block, and the host passes the
Fault(SinkWrite) on as fatal with its offset: from the patch step on, the write at 40 refused leaves the store as it was,
and the write at 4 refused leaves the count at 40 (42_wave_header.md R152: nothing is undone). Either way the run then ends
in a fault (93_implementation_defined.md U4; DESIGN CHOICE notes/assumptions/9.md). That one line of the sequence is one turn
of the host is the model's choice (DESIGN CHOICE notes/assumptions/17.md); how many steps the patch takes is not said. -/
def Obligations.RefusedPutStopsTheRun : Prop :=
  ∀ (s : State) (r : StreamRun), s.cmdPort = none → s.host.run = some r →
    (∀ bytes, s.resultBytes = some bytes → r.phase = .putHeader → s.sink.accepts 0 bytes.length = false →
      ∃ t, step s = .next t ∧ t.frame = s.frame ∧ t.cmdPort = none ∧ step t = .fault (.runFailed (.sinkWrite 0))) ∧
    (∀ bytes, s.resultBytes = some bytes → r.phase = .putUnit → s.sink.accepts r.wp bytes.length = false →
      ∃ t, step s = .next t ∧ t.frame = s.frame ∧ t.cmdPort = none ∧ step t = .fault (.runFailed (.sinkWrite r.wp))) ∧
    (∀ off, s.respPort = some (.fault (.sinkWrite off)) → r.phase = .finish →
      ∃ t, step s = .next t ∧ t.frame = s.frame ∧ t.cmdPort = none ∧ step t = .fault (.runFailed (.sinkWrite off))) ∧
    (r.phase = .patch → r.cnt.toNat ≤ 0xFFFFFFDB → s.sink.accepts 40 4 = false →
      ∃ k t, runSteps k s = .next t ∧ t.frame = s.frame ∧ t.cmdPort = none ∧
        step t = .fault (.runFailed (.sinkWrite 40))) ∧
    (r.phase = .patch → r.cnt.toNat ≤ 0xFFFFFFDB → s.sink.accepts 40 4 = true → s.sink.accepts 4 4 = false →
      ∃ k t, runSteps k s = .next t ∧ t.memRead 40 4 = some r.cnt.toNat ∧
        (∀ a, ¬(40 ≤ a ∧ a < 44) → t.frame.read a = s.frame.read a) ∧ t.cmdPort = none ∧
        step t = .fault (.runFailed (.sinkWrite 4)))

/-- 43_stream_sequences.md R187: a run whose payload would pass 0xFFFFFFDB bytes is refused by name; one that stays within
it counts the unit and goes on. R187 does not say at which line the run is refused; that it is the first accepted payload
PUT past the bound is the model's reading (DEDUCED notes/assumptions/8.md). That the PUT and the count are one turn is the
model's choice (DESIGN CHOICE notes/assumptions/17.md). -/
def Obligations.PayloadOverTheCountIsRefused : Prop :=
  ∀ (s : State) (r : StreamRun) (bytes : List Byte), s.cmdPort = none → s.host.run = some r → r.phase = .putUnit →
    s.resultBytes = some bytes → s.sink.accepts r.wp bytes.length = true →
    (0xFFFFFFDB < r.cnt.toNat + r.dir.writeSize → step s = .refused .payloadTooLong) ∧
    (r.cnt.toNat + r.dir.writeSize ≤ 0xFFFFFFDB →
      ∃ t r', step s = .next t ∧ t.host.run = some r' ∧ r'.phase = .loop ∧
        r'.cnt.toNat = r.cnt.toNat + r.dir.writeSize ∧ r'.wp = r.wp + r.dir.writeSize ∧ r'.rp = r.rp)

/-! ### Scripts -/

/-- 30_encoding.md R86: a line that assembles to a command word assembles to the word of a command, so it is never
illegal; which word it is, Obligations.CommandLinesAssembleToTheirWords says. The syntax's open points are DESIGN CHOICE
notes/assumptions/16.md. -/
def Obligations.AssembledCommandsAreLegal : Prop :=
  ∀ (line : List Char) (w : CmdWord), assembleLine line = some (some (.issue w)) →
    legalWord w = true ∧ ∃ i, decode w = .ok i

/-- 30_encoding.md R86: each line of the four commands assembles to its word, under the mnemonic and under its alias. A
signed decimal sample `x` gives `bits_16(x)`, a hexadecimal sample, code or count gives that value, PCM gives 0 and MULAW 1,
and text after `;` changes nothing. That digits may be of either case, and that one blank separates the tokens, is DESIGN
CHOICE notes/assumptions/16.md. -/
def Obligations.CommandLinesAssembleToTheirWords : Prop :=
  (∀ ds : List Nat, ds ≠ [] → (∀ d ∈ ds, d < 10) →
    (∀ m ∈ [['E', 'N', 'C'], ['E', 'n', 'c', 'o', 'd', 'e']],
      (numeral 10 ds ≤ 32767 → assemblesTo (m ++ ' ' :: digitChars false ds)
        (commandWord 0x01#8 (0#16 ++ BitVec.ofInt 16 (numeral 10 ds)))) ∧
      (numeral 10 ds ≤ 32768 → assemblesTo (m ++ ' ' :: '-' :: digitChars false ds)
        (commandWord 0x01#8 (0#16 ++ BitVec.ofInt 16 (-(numeral 10 ds : Int)))))) ∧
    (∀ m ∈ [['H', 'D', 'R', '_', 'P', 'A', 'T', 'C', 'H'], ['p', 'a', 't', 'c', 'h', 'S', 'i', 'z', 'e', 's']],
      numeral 10 ds ≤ 0xFFFFFFFF → assemblesTo (m ++ ' ' :: digitChars false ds)
        (commandWord 0x04#8 (BitVec.ofNat 32 (numeral 10 ds))))) ∧
  (∀ (up : Bool) (ds : List Nat), ds ≠ [] → (∀ d ∈ ds, d < 16) →
    (∀ m ∈ [['E', 'N', 'C'], ['E', 'n', 'c', 'o', 'd', 'e']],
      numeral 16 ds ≤ 0xFFFF → assemblesTo (m ++ ' ' :: '0' :: 'x' :: digitChars up ds)
        (commandWord 0x01#8 (0#16 ++ BitVec.ofNat 16 (numeral 16 ds)))) ∧
    (∀ m ∈ [['D', 'E', 'C'], ['D', 'e', 'c', 'o', 'd', 'e']],
      numeral 16 ds ≤ 0xFF → assemblesTo (m ++ ' ' :: '0' :: 'x' :: digitChars up ds)
        (commandWord 0x02#8 (0#24 ++ BitVec.ofNat 8 (numeral 16 ds)))) ∧
    (∀ m ∈ [['H', 'D', 'R', '_', 'P', 'A', 'T', 'C', 'H'], ['p', 'a', 't', 'c', 'h', 'S', 'i', 'z', 'e', 's']],
      numeral 16 ds ≤ 0xFFFFFFFF → assemblesTo (m ++ ' ' :: '0' :: 'x' :: digitChars up ds)
        (commandWord 0x04#8 (BitVec.ofNat 32 (numeral 16 ds))))) ∧
  (∀ m ∈ [['H', 'D', 'R', '_', 'B', 'U', 'I', 'L', 'D'], ['b', 'u', 'i', 'l', 'd', 'H', 'e', 'a', 'd', 'e', 'r']],
    assemblesTo (m ++ [' ', 'P', 'C', 'M']) (commandWord 0x03#8 0#32) ∧
    assemblesTo (m ++ [' ', 'M', 'U', 'L', 'A', 'W']) (commandWord 0x03#8 1#32)) ∧
  ∀ line comment : List Char, assembleLine (line ++ ';' :: comment) = assembleLine line
end

