-- ==== Sys2Proof/Laws/Decode.lean ====
section
/-! SUPPORT. The two fields of an assembled command word, and the rows of the opcode table in terms of them. Later proofs
about decoding cite these and never look inside a concatenation. -/

namespace Sys2Proof

@[simp] theorem opcodeOf_commandWord (op : BitVec 8) (x : BitVec 32) : opcodeOf (commandWord op x) = op := by
  apply BitVec.eq_of_getLsbD_eq
  intro i hi
  have : (op ++ x : BitVec (8 + 32)).getLsbD (32 + i) = op.getLsbD i := by rw [BitVec.getLsbD_append]; simp
  simpa [opcodeOf, commandWord, BitVec.getLsbD_extractLsb', hi] using this

@[simp] theorem operandOf_commandWord (op : BitVec 8) (x : BitVec 32) : operandOf (commandWord op x) = x := by
  apply BitVec.eq_of_getLsbD_eq
  intro i hi
  have : (op ++ x : BitVec (8 + 32)).getLsbD i = x.getLsbD i := by rw [BitVec.getLsbD_append]; simp [hi]
  simpa [operandOf, commandWord, BitVec.getLsbD_extractLsb', hi] using this

/-- A word is its two fields. -/
theorem commandWord_of_fields (w : CmdWord) : commandWord (opcodeOf w) (operandOf w) = w := by
  apply BitVec.eq_of_getLsbD_eq
  intro i hi
  have : (opcodeOf w ++ operandOf w : BitVec (8 + 32)).getLsbD i = w.getLsbD i := by
    rw [BitVec.getLsbD_append]
    split
    · simp [operandOf, *]
    · simp [opcodeOf, show i - 32 < 8 by omega, show 32 + (i - 32) = i by omega]
  exact this

/-- A row selects a word when it selects the word's opcode and operand. -/
theorem OpRow.selects_commandWord (m p : BitVec 32) (mo po op : BitVec 8) (s : String) (x : BitVec 32) :
    OpRow.selects ⟨s, commandWord po p, commandWord mo m⟩ (commandWord op x) = true ↔
      op &&& mo = po ∧ x &&& m = p := by
  have h : (commandWord op x &&& commandWord mo m) = commandWord (op &&& mo) (x &&& m) := BitVec.and_append
  simp only [OpRow.selects, h, beq_iff_eq]
  constructor
  · intro e
    have h1 := congrArg opcodeOf e
    have h2 := congrArg operandOf e
    simp only [opcodeOf_commandWord, operandOf_commandWord] at h1 h2
    exact ⟨h1, h2⟩
  · rintro ⟨rfl, rfl⟩; rfl

/-- The opcode table with each mask and pattern cut into opcode and operand. -/
theorem opcodeTable_fields : opcodeTable =
    [ ⟨"ENC", commandWord 0x01#8 0#32, commandWord 0xFF#8 0xFFFF0000#32⟩,
      ⟨"DEC", commandWord 0x02#8 0#32, commandWord 0xFF#8 0xFFFFFF00#32⟩,
      ⟨"HDR_BUILD", commandWord 0x03#8 0#32, commandWord 0xFF#8 0xFFFFFFFE#32⟩,
      ⟨"HDR_PATCH", commandWord 0x04#8 0#32, commandWord 0xFF#8 0#32⟩ ] := by decide

/-- A sample in its operand leaves the reserved bits of ENC zero. -/
theorem sample_operand_reserved (x : Sample) : x.setWidth 32 &&& 0xFFFF0000#32 = 0#32 := by
  apply BitVec.eq_of_getLsbD_eq
  intro i hi
  interval_cases i <;> simp

/-- A code in its operand leaves the reserved bits of DEC zero. -/
theorem code_operand_reserved (c : Code) : c.setWidth 32 &&& 0xFFFFFF00#32 = 0#32 := by
  apply BitVec.eq_of_getLsbD_eq
  intro i hi
  interval_cases i <;> simp

end Sys2Proof
end

