-- ==== Sys2Proof/Laws/State.lean ====
section
/-! SUPPORT. The field lemmas of the state updates: one per field per update, so that no later proof unfolds a record
update. -/

namespace Sys2Proof.Machine

@[simp] theorem State.respond_frame (s : State) (r : Response) : (s.respond r).frame = s.frame := rfl
@[simp] theorem State.respond_cmdPort (s : State) (r : Response) : (s.respond r).cmdPort = s.cmdPort := rfl
@[simp] theorem State.respond_respPort (s : State) (r : Response) : (s.respond r).respPort = some r := rfl
@[simp] theorem State.respond_faultLog (s : State) (r : Response) : (s.respond r).faultLog = s.faultLog := rfl
@[simp] theorem State.respond_sink (s : State) (r : Response) : (s.respond r).sink = s.sink := rfl
@[simp] theorem State.respond_host (s : State) (r : Response) : (s.respond r).host = s.host := rfl

@[simp] theorem State.answerOk_frame (s : State) (r : Result) : (s.answerOk r).frame = s.frame := rfl
@[simp] theorem State.answerOk_cmdPort (s : State) (r : Result) : (s.answerOk r).cmdPort = s.cmdPort := rfl
@[simp] theorem State.answerOk_respPort (s : State) (r : Result) : (s.answerOk r).respPort = some (.ok r) := rfl
@[simp] theorem State.answerOk_faultLog (s : State) (r : Result) : (s.answerOk r).faultLog = s.faultLog := rfl
@[simp] theorem State.answerOk_sink (s : State) (r : Result) : (s.answerOk r).sink = s.sink := rfl
@[simp] theorem State.answerOk_host (s : State) (r : Result) : (s.answerOk r).host = s.host := rfl

@[simp] theorem State.raise_frame (s : State) (c : Cause) : (s.raise c).frame = s.frame := rfl
@[simp] theorem State.raise_cmdPort (s : State) (c : Cause) : (s.raise c).cmdPort = s.cmdPort := rfl
@[simp] theorem State.raise_respPort (s : State) (c : Cause) : (s.raise c).respPort = some (.fault c) := rfl
@[simp] theorem State.raise_faultLog (s : State) (c : Cause) : (s.raise c).faultLog = c :: s.faultLog := rfl
@[simp] theorem State.raise_sink (s : State) (c : Cause) : (s.raise c).sink = s.sink := rfl
@[simp] theorem State.raise_host (s : State) (c : Cause) : (s.raise c).host = s.host := rfl

@[simp] theorem State.issue_frame (s : State) (w : CmdWord) : (s.issue w).frame = s.frame := rfl
@[simp] theorem State.issue_cmdPort (s : State) (w : CmdWord) : (s.issue w).cmdPort = some w := rfl
@[simp] theorem State.issue_respPort (s : State) (w : CmdWord) : (s.issue w).respPort = none := rfl
@[simp] theorem State.issue_faultLog (s : State) (w : CmdWord) : (s.issue w).faultLog = s.faultLog := rfl
@[simp] theorem State.issue_sink (s : State) (w : CmdWord) : (s.issue w).sink = s.sink := rfl
@[simp] theorem State.issue_host (s : State) (w : CmdWord) : (s.issue w).host = s.host := rfl

@[simp] theorem State.takeCommand_frame (s : State) : (s.takeCommand).frame = s.frame := rfl
@[simp] theorem State.takeCommand_cmdPort (s : State) : (s.takeCommand).cmdPort = none := rfl
@[simp] theorem State.takeCommand_respPort (s : State) : (s.takeCommand).respPort = s.respPort := rfl
@[simp] theorem State.takeCommand_faultLog (s : State) : (s.takeCommand).faultLog = s.faultLog := rfl
@[simp] theorem State.takeCommand_sink (s : State) : (s.takeCommand).sink = s.sink := rfl
@[simp] theorem State.takeCommand_host (s : State) : (s.takeCommand).host = s.host := rfl

@[simp] theorem State.resetEvent_frame (s : State) : (s.resetEvent).frame = [] := rfl
@[simp] theorem State.resetEvent_cmdPort (s : State) : (s.resetEvent).cmdPort = none := rfl
@[simp] theorem State.resetEvent_respPort (s : State) : (s.resetEvent).respPort = none := rfl
@[simp] theorem State.resetEvent_faultLog (s : State) : (s.resetEvent).faultLog = [] := rfl
@[simp] theorem State.resetEvent_sink (s : State) : (s.resetEvent).sink = s.sink := rfl
@[simp] theorem State.resetEvent_host (s : State) : (s.resetEvent).host = s.host := rfl

@[simp] theorem State.setPending_frame (s : State) (l : List HostAction) : (s.setPending l).frame = s.frame := rfl
@[simp] theorem State.setPending_cmdPort (s : State) (l : List HostAction) : (s.setPending l).cmdPort = s.cmdPort := rfl
@[simp] theorem State.setPending_respPort (s : State) (l : List HostAction) : (s.setPending l).respPort = s.respPort := rfl
@[simp] theorem State.setPending_faultLog (s : State) (l : List HostAction) : (s.setPending l).faultLog = s.faultLog := rfl
@[simp] theorem State.setPending_sink (s : State) (l : List HostAction) : (s.setPending l).sink = s.sink := rfl
@[simp] theorem State.setPending_host (s : State) (l : List HostAction) : (s.setPending l).host = { s.host with pending := l } := rfl

@[simp] theorem State.setAnswer_frame (s : State) (a : Answer) : (s.setAnswer a).frame = s.frame := rfl
@[simp] theorem State.setAnswer_cmdPort (s : State) (a : Answer) : (s.setAnswer a).cmdPort = s.cmdPort := rfl
@[simp] theorem State.setAnswer_respPort (s : State) (a : Answer) : (s.setAnswer a).respPort = s.respPort := rfl
@[simp] theorem State.setAnswer_faultLog (s : State) (a : Answer) : (s.setAnswer a).faultLog = s.faultLog := rfl
@[simp] theorem State.setAnswer_sink (s : State) (a : Answer) : (s.setAnswer a).sink = s.sink := rfl
@[simp] theorem State.setAnswer_host (s : State) (a : Answer) : (s.setAnswer a).host = { s.host with answer := some a } := rfl

@[simp] theorem State.setRun_frame (s : State) (r : StreamRun) : (s.setRun r).frame = s.frame := rfl
@[simp] theorem State.setRun_cmdPort (s : State) (r : StreamRun) : (s.setRun r).cmdPort = s.cmdPort := rfl
@[simp] theorem State.setRun_respPort (s : State) (r : StreamRun) : (s.setRun r).respPort = s.respPort := rfl
@[simp] theorem State.setRun_faultLog (s : State) (r : StreamRun) : (s.setRun r).faultLog = s.faultLog := rfl
@[simp] theorem State.setRun_sink (s : State) (r : StreamRun) : (s.setRun r).sink = s.sink := rfl
@[simp] theorem State.setRun_host (s : State) (r : StreamRun) : (s.setRun r).host = { s.host with run := some r } := rfl

end Sys2Proof.Machine
end

