-- ==== Sys2Proof/Laws/Memory.lean ====
section
/-! SUPPORT. The laws of the frame store: a read after a write, the canonical form, the bounds, and the byte order. -/

namespace Sys2Proof.Machine

theorem Memory.read_write_same (m : Memory) (a : Nat) (b : Byte) : (m.write a b).read a = some b := by
  induction m with
  | nil => simp [Memory.write, Memory.read]
  | cons c rest ih =>
    obtain ⟨x, v⟩ := c
    simp only [Memory.write]
    split
    · simp [Memory.read]
    · split
      · simp [Memory.read]
      · simp [Memory.read, *]

theorem Memory.read_write_other (m : Memory) {a a' : Nat} (b : Byte) (h : a' ≠ a) :
    (m.write a b).read a' = m.read a' := by
  induction m with
  | nil => simp [Memory.write, Memory.read, h]
  | cons c rest ih =>
    obtain ⟨x, v⟩ := c
    simp only [Memory.write]
    split
    · simp [Memory.read, h]
    · split
      · next hx => subst hx; simp [Memory.read, h]
      · simp [Memory.read, ih]

/-- A read after a one-byte write. -/
theorem Memory.read_write (m : Memory) (a a' : Nat) (b : Byte) :
    (m.write a b).read a' = if a' = a then some b else m.read a' := by
  split
  · next h => subst h; exact Memory.read_write_same m a' b
  · next h => exact Memory.read_write_other m b h

/-- A byte outside the written range reads as before. -/
theorem Memory.read_writeBytes_outside (bs : List Byte) :
    ∀ (m : Memory) (a a' : Nat), a' < a ∨ a + bs.length ≤ a' → (m.writeBytes a bs).read a' = m.read a' := by
  induction bs with
  | nil => intros; rfl
  | cons b bs ih =>
    intro m a a' h
    simp only [List.length_cons] at h
    rw [Memory.writeBytes, ih _ _ _ (by omega), Memory.read_write_other _ _ (by omega)]

/-- A byte inside the written range reads as the byte stored there. -/
theorem Memory.read_writeBytes_inside (bs : List Byte) :
    ∀ (m : Memory) (a k : Nat) (h : k < bs.length), (m.writeBytes a bs).read (a + k) = some bs[k] := by
  induction bs with
  | nil => intro m a k h; simp at h
  | cons b bs ih =>
    intro m a k h
    rw [Memory.writeBytes]
    cases k with
    | zero =>
      rw [Memory.read_writeBytes_outside _ _ _ _ (by omega)]
      simpa using Memory.read_write_same m a b
    | succ k =>
      have h' := ih (m.write a b) (a + 1) k (by simpa using h)
      simpa [Nat.add_assoc, Nat.add_comm 1] using h'

/-- The offsets of a memory after a one-byte write. -/
theorem Memory.mem_write {m : Memory} {a : Nat} {b : Byte} {c : Host.Cell} (h : c ∈ m.write a b) :
    c.1 = a ∨ c ∈ m := by
  induction m with
  | nil => left; simpa [Memory.write] using congrArg Prod.fst (List.mem_singleton.mp h)
  | cons d rest ih =>
    obtain ⟨x, v⟩ := d
    simp only [Memory.write] at h
    split at h
    · rcases List.mem_cons.mp h with rfl | h
      · exact .inl rfl
      · exact .inr h
    · split at h
      · rcases List.mem_cons.mp h with rfl | h
        · exact .inl rfl
        · exact .inr (List.mem_cons_of_mem _ h)
      · rcases List.mem_cons.mp h with rfl | h
        · exact .inr (List.mem_cons_self ..)
        · exact (ih h).imp_right (List.mem_cons_of_mem _)

/-- A one-byte write keeps the canonical form. -/
theorem Memory.write_wf {m : Memory} (a : Nat) (b : Byte) (h : m.wf) : (m.write a b).wf := by
  induction m with
  | nil => simp [Memory.write, Memory.wf]
  | cons c rest ih =>
    obtain ⟨x, v⟩ := c
    obtain ⟨hx, hrest⟩ := List.pairwise_cons.mp h
    simp only [Memory.write]
    split
    · next hlt =>
      refine List.pairwise_cons.mpr ⟨fun d hd => ?_, h⟩
      rcases List.mem_cons.mp hd with rfl | hd
      · exact hlt
      · exact Nat.lt_trans hlt (hx d hd)
    · split
      · next heq => subst heq; exact List.pairwise_cons.mpr ⟨hx, hrest⟩
      · next hlt hne =>
        refine List.pairwise_cons.mpr ⟨fun d hd => ?_, ih hrest⟩
        rcases Memory.mem_write hd with hd | hd
        · simp only [hd]; omega
        · exact hx d hd

theorem Memory.writeBytes_wf (bs : List Byte) : ∀ (m : Memory) (a : Nat), m.wf → (m.writeBytes a bs).wf := by
  induction bs with
  | nil => intro m a h; exact h
  | cons b bs ih => intro m a h; exact ih _ _ (Memory.write_wf a b h)

/-- The offsets of a memory after a write of bytes. -/
theorem Memory.mem_writeBytes (bs : List Byte) :
    ∀ {m : Memory} {a : Nat} {c : Host.Cell}, c ∈ m.writeBytes a bs → c ∈ m ∨ (a ≤ c.1 ∧ c.1 < a + bs.length) := by
  induction bs with
  | nil => intro m a c h; exact .inl h
  | cons b bs ih =>
    intro m a c h
    simp only [List.length_cons]
    rcases ih h with h | h
    · rcases Memory.mem_write h with h | h
      · right; omega
      · exact .inl h
    · right; omega

/-- Two one-byte writes at different offsets commute. -/
theorem Memory.write_comm (m : Memory) {a a' : Nat} (b b' : Byte) (h : a ≠ a') :
    (m.write a b).write a' b' = (m.write a' b').write a b := by
  induction m with
  | nil => grind [Memory.write]
  | cons c rest ih => grind [Memory.write]

/-- The second of two writes of one byte at one offset is the one that stays. -/
theorem Memory.write_write (m : Memory) (a : Nat) (b b' : Byte) : (m.write a b).write a b' = m.write a b' := by
  induction m with
  | nil => simp [Memory.write]
  | cons c rest ih =>
    obtain ⟨x, v⟩ := c
    rcases Nat.lt_trichotomy a x with h | rfl | h
    · simp [Memory.write, h]
    · simp [Memory.write]
    · simp [Memory.write, Nat.lt_asymm h, Nat.ne_of_gt h, ih]

/-- A one-byte write commutes with a write of bytes elsewhere. -/
theorem Memory.writeBytes_write_comm (bs : List Byte) :
    ∀ (m : Memory) (a a' : Nat) (b : Byte), a' < a ∨ a + bs.length ≤ a' →
      (m.writeBytes a bs).write a' b = (m.write a' b).writeBytes a bs := by
  induction bs with
  | nil => intros; rfl
  | cons c bs ih =>
    intro m a a' b h
    simp only [List.length_cons] at h
    rw [Memory.writeBytes, Memory.writeBytes, ih _ _ _ _ (by omega), Memory.write_comm _ _ _ (by omega)]

/-- Two writes of bytes to disjoint ranges commute. -/
theorem Memory.writeBytes_comm (cs : List Byte) :
    ∀ (m : Memory) (a a' : Nat) (bs : List Byte), a' + cs.length ≤ a ∨ a + bs.length ≤ a' →
      (m.writeBytes a bs).writeBytes a' cs = (m.writeBytes a' cs).writeBytes a bs := by
  induction cs with
  | nil => intros; rfl
  | cons c cs ih =>
    intro m a a' bs h
    simp only [List.length_cons] at h
    rw [Memory.writeBytes, Memory.writeBytes, Memory.writeBytes_write_comm _ _ _ _ _ (by omega), ih _ _ _ _ (by omega)]

/-- The second of two writes of as many bytes to one range is the one that stays. -/
theorem Memory.writeBytes_writeBytes (cs : List Byte) :
    ∀ (m : Memory) (a : Nat) (bs : List Byte), bs.length = cs.length →
      (m.writeBytes a bs).writeBytes a cs = m.writeBytes a cs := by
  induction cs with
  | nil => intro m a bs h; simp only [List.length_nil, List.length_eq_zero_iff] at h; subst h; rfl
  | cons c cs ih =>
    intro m a bs h
    cases bs with
    | nil => simp at h
    | cons b bs =>
      simp only [List.length_cons, Nat.add_right_cancel_iff] at h
      simp only [Memory.writeBytes]
      rw [Memory.writeBytes_write_comm _ _ _ _ _ (by omega), Memory.write_write, ih _ _ _ h]

@[simp] theorem leBytes_length (n v : Nat) : (leBytes n v).length = n := by
  induction n generalizing v with
  | zero => rfl
  | succ n ih => simp [leBytes, ih]

/-- Reading back the bytes of a number that fits them gives the number. -/
theorem leValue_leBytes (n v : Nat) (h : v < 256 ^ n) : leValue (leBytes n v) = v := by
  induction n generalizing v with
  | zero => simp at h; simp [leBytes, leValue, h]
  | succ n ih =>
    have h' : v / 256 < 256 ^ n := by rw [Nat.div_lt_iff_lt_mul (by decide)]; simpa [Nat.pow_succ] using h
    simp only [leBytes, leValue, ih _ h', BitVec.toNat_ofNat]
    omega

theorem leBytes_getElem (n v k : Nat) (h : k < (leBytes n v).length) :
    (leBytes n v)[k] = BitVec.ofNat 8 (v / 256 ^ k) := by
  induction n generalizing v k with
  | zero => simp at h
  | succ n ih =>
    cases k with
    | zero => simp [leBytes]
    | succ k =>
      simp only [leBytes, List.getElem_cons_succ]
      rw [ih, Nat.div_div_eq_div_mul, Nat.pow_succ, Nat.mul_comm (256 ^ k)]

/-- Bytes that are all written are what a read of them gives. -/
theorem Memory.readBytes_eq_some_iff (m : Memory) (n : Nat) : ∀ (a : Nat) (bs : List Byte),
    m.readBytes a n = some bs ↔ bs.length = n ∧ ∀ k (h : k < bs.length), m.read (a + k) = some bs[k] := by
  induction n with
  | zero =>
    intro a bs
    cases bs with
    | nil => simp [Memory.readBytes]
    | cons b bs => simp [Memory.readBytes]
  | succ n ih =>
    intro a bs
    cases bs with
    | nil =>
      simp only [Memory.readBytes, List.length_nil, Nat.zero_ne_add_one, false_and, iff_false]
      split <;> simp
    | cons b bs =>
      simp only [Memory.readBytes, List.length_cons, Nat.add_right_cancel_iff]
      constructor
      · intro h
        split at h
        · next c cs hc hcs =>
          obtain ⟨rfl, rfl⟩ : c = b ∧ cs = bs := by simpa using h
          obtain ⟨hl, hk⟩ := (ih _ _).mp hcs
          refine ⟨hl, fun k hk' => ?_⟩
          cases k with
          | zero => simpa using hc
          | succ k => simpa [Nat.add_assoc, Nat.add_comm 1] using hk k (by omega)
        · simp at h
      · rintro ⟨hl, hk⟩
        have h0 : m.read a = some b := by simpa using hk 0 (by omega)
        have h1 : m.readBytes (a + 1) n = some bs := (ih _ _).mpr
          ⟨hl, fun k hk' => by
            have := hk (k + 1) (by simp; omega)
            simpa only [List.getElem_cons_succ, Nat.add_assoc, Nat.add_comm 1] using this⟩
        simp [h0, h1]

/-- A number whose bytes all stand in the store is what a read of them gives. -/
theorem Memory.readBytes_leBytes {m : Memory} {a n v : Nat} (h : v < 256 ^ n)
    (hr : ∀ k (hk : k < (leBytes n v).length), m.read (a + k) = some (leBytes n v)[k]) :
    (m.readBytes a n).map leValue = some v := by
  rw [(Memory.readBytes_eq_some_iff m n a (leBytes n v)).mpr ⟨leBytes_length n v, hr⟩]
  simp [leValue_leBytes n v h]

/-- Stored bytes read back. -/
theorem Memory.readBytes_writeBytes (m : Memory) (a : Nat) (bs : List Byte) :
    (m.writeBytes a bs).readBytes a bs.length = some bs :=
  (Memory.readBytes_eq_some_iff _ _ _ _).mpr ⟨rfl, fun k h => Memory.read_writeBytes_inside bs m a k h⟩

end Sys2Proof.Machine
end

