-- ==== Sys2Proof/Laws/Ops.lean ====
section
/-! SUPPORT. One lemma per shared operation that says everything it can do: storing, patching, PUT, and the bounds of the
leading-bit scan. -/

namespace Sys2Proof.Machine

theorem Sink.accepts_iff (k : Sink) (addr n : Nat) :
    k.accepts addr n = true ↔ addr + n ≤ k.cap ∧ (addr, n) ∉ k.refused := by
  simp [Sink.accepts]

/-- Everything a store can do: it is accepted and only the frame changes, or it is refused. -/
theorem State.store_cases (s : State) (addr : Nat) (bytes : List Byte) :
    (s.sink.accepts addr bytes.length = true ∧
      s.store addr bytes = some { s with frame := s.frame.writeBytes addr bytes }) ∨
    (s.sink.accepts addr bytes.length = false ∧ s.store addr bytes = none) := by
  unfold State.store
  split
  · next h => exact .inl ⟨h, rfl⟩
  · next h => exact .inr ⟨by simpa using h, rfl⟩

theorem State.store_eq_some {s t : State} {addr : Nat} {bytes : List Byte} (h : s.store addr bytes = some t) :
    s.sink.accepts addr bytes.length = true ∧ t = { s with frame := s.frame.writeBytes addr bytes } := by
  rcases State.store_cases s addr bytes with ⟨ha, he⟩ | ⟨_, he⟩
  · exact ⟨ha, by simpa [he] using h.symm⟩
  · simp [he] at h

theorem State.store_accepted {s : State} {addr : Nat} {bytes : List Byte}
    (h : s.sink.accepts addr bytes.length = true) :
    s.store addr bytes = some { s with frame := s.frame.writeBytes addr bytes } := by
  simp [State.store, h]

theorem State.store_refused {s : State} {addr : Nat} {bytes : List Byte}
    (h : s.sink.accepts addr bytes.length = false) : s.store addr bytes = none := by
  simp [State.store, h]

/-- A store keeps the canonical form and the bounds of the frame. -/
theorem State.store_frameInv {s t : State} {addr : Nat} {bytes : List Byte} (h : s.store addr bytes = some t)
    (hi : s.FrameInv) : t.FrameInv := by
  obtain ⟨ha, rfl⟩ := State.store_eq_some h
  obtain ⟨hwf, hcap, h44⟩ := hi
  refine ⟨Memory.writeBytes_wf _ _ _ hwf, fun c hc => ?_, h44⟩
  have hle := ((Sink.accepts_iff _ _ _).mp ha).1
  rcases Memory.mem_writeBytes _ hc with hc | hc
  · exact hcap c hc
  · show c.1 < s.sink.cap; omega

/-- Everything a PUT can do. -/
theorem hostPut_cases (off : Nat) (bytes : List Byte) (s : State) :
    (s.sink.accepts off bytes.length = true ∧
      hostPut off bytes s = State.setAnswer { s with frame := s.frame.writeBytes off bytes } (.put true)) ∨
    (s.sink.accepts off bytes.length = false ∧ hostPut off bytes s = s.setAnswer (.put false)) := by
  unfold hostPut
  rcases State.store_cases s off bytes with ⟨ha, he⟩ | ⟨ha, he⟩
  · exact .inl ⟨ha, by rw [he]⟩
  · exact .inr ⟨ha, by rw [he]⟩

/-- Everything the two writes of HDR_PATCH can do (42_wave_header.md R150, R152). -/
theorem patchSizes_cases (n : Count) (s : State) :
    (s.sink.accepts 40 4 = false ∧ patchSizes n s = s.raise (.sinkWrite 40)) ∨
    (s.sink.accepts 40 4 = true ∧ s.sink.accepts 4 4 = false ∧
      patchSizes n s = State.raise { s with frame := s.frame.writeBytes 40 (leBytes 4 n.toNat) } (.sinkWrite 4)) ∨
    (s.sink.acceptsPatch ∧ patchSizes n s = State.answerOk { s with
      frame := (s.frame.writeBytes 40 (leBytes 4 n.toNat)).writeBytes 4 (leBytes 4 (n.toNat + 36)) } .nothing) := by
  unfold patchSizes State.memWrite
  rcases State.store_cases s 40 (leBytes 4 n.toNat) with ⟨ha, he⟩ | ⟨ha, he⟩ <;> rw [leBytes_length] at ha
  · right
    rw [he]
    unfold patchChunkSize State.memWrite
    rcases State.store_cases { s with frame := s.frame.writeBytes 40 (leBytes 4 n.toNat) } 4
      (leBytes 4 (n.toNat + 36)) with ⟨hb, hf⟩ | ⟨hb, hf⟩ <;> rw [leBytes_length] at hb
    · exact .inr ⟨⟨ha, hb⟩, by simp only [Config.offChunkSize, Config.chunkOverhead]; rw [hf]⟩
    · exact .inl ⟨ha, hb, by simp only [Config.offChunkSize, Config.chunkOverhead]; rw [hf]⟩
  · exact .inl ⟨ha, by simp only [Config.offDataSize]; rw [he]⟩

/-- The scan never leaves the bits it looks at (40_encode.md R103). -/
theorem scanFrom_bounds (m k : Nat) : 5 ≤ scanFrom m k ∧ scanFrom m k ≤ 5 + k := by
  induction k with
  | zero => exact ⟨Nat.le_refl _, Nat.le_refl _⟩
  | succ k ih =>
    simp only [scanFrom, Config.scanBot]
    split
    · exact ⟨by omega, by omega⟩
    · exact ⟨ih.1, by omega⟩

theorem position_bounds (m : Nat) : 5 ≤ position m ∧ position m ≤ 12 := scanFrom_bounds m 7

theorem segmentOf_le (m : Nat) : segmentOf m ≤ 7 := by
  have := position_bounds m
  simp only [segmentOf, Config.scanBot]; omega

theorem mantissaOf_le (m : Nat) : mantissaOf m ≤ 15 := Nat.and_le_right

end Sys2Proof.Machine
end

