-- ==== Sys2Proof/Laws/PerInstr.lean ====
section
/-! SUPPORT. A law per command: its word is legal and selects the row of its own mnemonic only
(30_encoding.md R81, R84). -/

namespace Sys2Proof.Laws

/-- The word of a command selects a row of the opcode table, and no row but that of its own mnemonic. -/
def EncodesLegal.Statement (i : Instr) : Prop :=
  legalWord (encode i) = true ∧ ∀ r ∈ opcodeTable, r.selects (encode i) = true → r.mnemonic = i.mnemonic

theorem EncodesLegal.enc (sample : Sample) : EncodesLegal.Statement (.enc sample) := by
  rw [EncodesLegal.Statement, legalWord, opcodeTable_fields]
  simp [encode, OpRow.selects_commandWord, sample_operand_reserved, Instr.mnemonic]

theorem EncodesLegal.dec (code : Code) : EncodesLegal.Statement (.dec code) := by
  rw [EncodesLegal.Statement, legalWord, opcodeTable_fields]
  simp [encode, OpRow.selects_commandWord, code_operand_reserved, Instr.mnemonic]

theorem EncodesLegal.hdrBuild (kind : Kind) : EncodesLegal.Statement (.hdrBuild kind) := by
  cases kind <;> exact ⟨by decide, by decide⟩

theorem EncodesLegal.hdrPatch (n : Count) : EncodesLegal.Statement (.hdrPatch n) := by
  rw [EncodesLegal.Statement, legalWord, opcodeTable_fields]
  simp [encode, OpRow.selects_commandWord, Instr.mnemonic]

end Sys2Proof.Laws
end

