-- ==== Sys2Proof/Laws/Script.lean ====
section
/-! SUPPORT. What the pieces of the assembler do (30_encoding.md R86): comments are dropped, a line of two plain tokens is
split into them, and digits are read as the number they stand for. -/

namespace Sys2Proof.Machine

/-- A character that is neither a blank nor a comma nor the start of a comment. -/
def plainChar (c : Char) : Bool := !(isBlank c || c == ',' || c == ';')

/-- Text after `;` is dropped. -/
theorem stripComment_append (line comment : List Char) :
    stripComment (line ++ ';' :: comment) = stripComment line := by
  induction line with
  | nil => rfl
  | cons c line ih => simp only [List.cons_append, stripComment, ih]

theorem stripComment_of_no_semicolon {line : List Char} (h : ∀ c ∈ line, c ≠ ';') : stripComment line = line := by
  induction line with
  | nil => rfl
  | cons c line ih => simp_all [stripComment]

/-- Plain characters are gathered into the token under way. -/
theorem tokensFrom_plain {word : List Char} (h : ∀ c ∈ word, plainChar c = true) (tok rest : List Char) :
    tokensFrom tok (word ++ rest) = tokensFrom (word.reverse ++ tok) rest := by
  induction word generalizing tok with
  | nil => rfl
  | cons c word ih =>
    simp only [List.mem_cons, forall_eq_or_imp] at h
    have hc := h.1
    simp only [plainChar, Bool.not_eq_true', Bool.or_eq_false_iff] at hc
    simp [tokensFrom, hc.1.1, hc.1.2, ih h.2]

/-- A mnemonic and an operand of plain characters with a blank between are the tokens of their line. -/
theorem tokens_two {m o : List Char} (hm : m ≠ []) (ho : o ≠ []) (h : ∀ c ∈ m ++ o, plainChar c = true) :
    tokens (m ++ ' ' :: o) = [m, o] := by
  have hs : ∀ c ∈ m ++ ' ' :: o, c ≠ ';' := by
    rintro c hc rfl
    rcases List.mem_append.mp hc with hc | hc
    · exact absurd (h _ (List.mem_append_left _ hc)) (by decide)
    · rcases List.mem_cons.mp hc with hc | hc
      · exact absurd hc (by decide)
      · exact absurd (h _ (List.mem_append_right _ hc)) (by decide)
  have hlast := tokensFrom_plain (fun c hc => h c (List.mem_append_right _ hc)) [] []
  rw [List.append_nil, List.append_nil] at hlast
  rw [tokens, stripComment_of_no_semicolon hs, tokensFrom_plain (fun c hc => h c (List.mem_append_left _ hc))]
  simp [tokensFrom, isBlank, hlast, pushToken, hm, ho]

/-- A line of a mnemonic and an operand hands over the word of the command they name. -/
theorem assembleLine_two {m o : List Char} (hm : m ≠ []) (ho : o ≠ []) (h : ∀ c ∈ m ++ o, plainChar c = true) :
    assembleLine (m ++ ' ' :: o) = (parseCommand m o).map (fun i => some (.issue (encode i))) := by
  simp [assembleLine, tokens_two hm ho h, parseTokens]

/-- The sixteen digits, in either case, are plain and have their value. -/
theorem digitChar_reads : ∀ d, d < 16 → ∀ up : Bool,
    plainChar (if up then (Nat.digitChar d).toUpper else Nat.digitChar d) = true ∧
    hexDigit (if up then (Nat.digitChar d).toUpper else Nat.digitChar d) = some d := by decide

theorem digitChars_ne_nil {up : Bool} {ds : List Nat} (h : ds ≠ []) : digitChars up ds ≠ [] := by
  simp [digitChars, h]

theorem plainChar_digitChars {up : Bool} {ds : List Nat} (h : ∀ d ∈ ds, d < 16) :
    ∀ c ∈ digitChars up ds, plainChar c = true := by
  simp only [digitChars, List.mem_map]
  rintro c ⟨d, hd, rfl⟩
  exact (digitChar_reads d (h d hd) up).1

theorem digitsFrom_digitChars {base : Nat} (hb : base ≤ 16) (up : Bool) {ds : List Nat} (h : ∀ d ∈ ds, d < base)
    (acc : Nat) :
    digitsFrom base acc (digitChars up ds) = some (ds.foldl (fun acc d => acc * base + d) acc) := by
  induction ds generalizing acc with
  | nil => rfl
  | cons d ds ih =>
    simp only [List.mem_cons, forall_eq_or_imp] at h
    have hd := (digitChar_reads d (by omega) up).2
    simp only [digitChars, List.map_cons, digitsFrom, hd, h.1, if_true, List.foldl_cons]
    exact ih h.2 _

/-- Digits of a base are read as the number they stand for. -/
theorem digits_digitChars {base : Nat} (hb : base ≤ 16) (up : Bool) {ds : List Nat} (hne : ds ≠ [])
    (h : ∀ d ∈ ds, d < base) : digits base (digitChars up ds) = some (numeral base ds) := by
  cases ds with
  | nil => exact absurd rfl hne
  | cons d ds => exact digitsFrom_digitChars hb up h 0

end Sys2Proof.Machine
end

