-- ==== Sys2Proof/Laws/Step.lean ====
section
/-! SUPPORT. What a step can do, said once: the block's turn and each of the host's turns. -/

namespace Sys2Proof.Machine

theorem exec_enc (x : Sample) (s : State) :
    exec (.enc x) s = .next (s.answerOk (.code (encodeSample x))) := rfl

theorem exec_dec (c : Code) (s : State) :
    exec (.dec c) s = .next (s.answerOk (.sample (decodeCode c))) := rfl

theorem exec_hdrBuild (k : Kind) (s : State) :
    exec (.hdrBuild k) s = .next (s.answerOk (.header (template k))) := rfl

theorem exec_hdrPatch (n : Count) (s : State) : exec (.hdrPatch n) s =
    .next (if 0xFFFFFFDB < n.toNat then s.raise (.patchRange n) else patchSizes n s) := rfl

/-- A command in flight is the block's turn. -/
theorem step_of_cmdPort {s : State} {w : CmdWord} (h : s.cmdPort = some w) : step s = blockTurn w s := by
  simp [step, h]

/-- With no command in flight it is the host's turn. -/
theorem step_of_idle {s : State} (h : s.cmdPort = none) : step s = hostTurn s := by
  simp [step, h]

/-- Everything the block's turn can do: execute the decoded command, or answer Fault(IllegalCommand). -/
theorem blockTurn_cases (w : CmdWord) (s : State) :
    (∃ i, decode w = .ok i ∧ blockTurn w s = exec i s.takeCommand) ∨
    (∃ e, decode w = .error e ∧ blockTurn w s = .next (s.takeCommand.raise (.illegalCommand w))) := by
  unfold blockTurn execWord execIllegal
  cases decode w with
  | ok i => exact .inl ⟨i, rfl, rfl⟩
  | error e => exact .inr ⟨e, rfl, rfl⟩

/-- Every command completes (10_state.md R29: exec is total). -/
theorem exec_next (i : Instr) (s : State) : ∃ t, exec i s = .next t := by
  cases i <;> exact ⟨_, rfl⟩

/-- A host turn that is not inside a stream run takes the next pending action, or leaves an idle machine as it is. -/
theorem runPending_cases (s : State) :
    (s.host.pending = [] ∧ runPending s = .next s) ∨
    (∃ a rest, s.host.pending = a :: rest ∧ runPending s = hostAction a (s.setPending rest)) := by
  unfold runPending
  cases h : s.host.pending with
  | nil => exact .inl ⟨rfl, rfl⟩
  | cons a rest => exact .inr ⟨a, rest, rfl, rfl⟩

theorem hostTurn_of_run {s : State} {r : StreamRun} (h : s.host.run = some r) : hostTurn s = streamTurn r s := by
  simp [hostTurn, h]

theorem hostTurn_of_no_run {s : State} (h : s.host.run = none) : hostTurn s = runPending s := by
  simp [hostTurn, h]

/-- A host between actions takes its next pending action. -/
theorem step_of_hostFree {s : State} {a : HostAction} {rest : List HostAction} (h : s.hostFree)
    (hp : s.host.pending = a :: rest) : step s = hostAction a (s.setPending rest) := by
  obtain ⟨h1, h2⟩ := h
  rw [step_of_idle h1]
  rcases h2 with h2 | ⟨r, h2, h3⟩
  · simp [hostTurn, h2, runPending, hp]
  · simp [hostTurn, h2, runPending, hp, streamTurn, h3]

/-- A step of a stream run is its phase's turn. -/
theorem step_of_run {s : State} {r : StreamRun} (h : s.cmdPort = none) (hr : s.host.run = some r) :
    step s = streamTurn r s := by
  rw [step_of_idle h, hostTurn_of_run hr]

/-- Everything the `skip` line can do. -/
theorem turnSkip_cases (r : StreamRun) (s : State) : ∃ r', turnSkip r s = s.setRun r' := by
  unfold turnSkip
  split <;> exact ⟨_, rfl⟩

/-- Everything the `loop` line can do: issue a command, or move on. -/
theorem turnLoop_cases (r : StreamRun) (s : State) :
    (∃ r' i, turnLoop r s = (s.setRun r').issue (encode i)) ∨ (∃ r', turnLoop r s = s.setRun r') := by
  unfold turnLoop
  split
  · exact .inl ⟨_, _, rfl⟩
  · exact .inr ⟨_, rfl⟩

/-- Everything the host can do with the response to HDR_PATCH: end the run, or find no response. -/
theorem turnFinish_cases (r : StreamRun) (s : State) :
    (∃ resp, s.respPort = some resp ∧ turnFinish r s = .next (s.setRun { r with phase := patchOutcome resp })) ∨
    (s.respPort = none ∧ turnFinish r s = .refused .noResult) := by
  unfold turnFinish
  cases s.respPort with
  | none => exact .inr ⟨rfl, rfl⟩
  | some resp => exact .inl ⟨resp, rfl, rfl⟩

/-- After a run that failed the host stops (43_stream_sequences.md R184; notes/assumptions/9.md). -/
theorem step_of_failed {s : State} {r : StreamRun} {e : HostError} (h : s.cmdPort = none) (hr : s.host.run = some r)
    (hp : r.phase = .failed e) : step s = .fault (.runFailed e) := by
  rw [step_of_run h hr]; simp [streamTurn, hp]

end Sys2Proof.Machine
end

