-- ==== Sys2Proof/Tests/Slice0.lean ====
section
/-! SUPPORT. Tests. Expected values are those of spec/95_test_vectors.md and of the rules cited, never the model's own
output. The last part holds, for each statement with hypotheses, a witness that meets them. -/

namespace Sys2Proof.Tests

open Sys2Proof.Machine

/-- A machine with a store of 64 bytes, else as at reset. -/
def s64 : State := { State.reset with sink := { cap := 64, refused := [] } }

/-- The same with a sink that refuses some writes. -/
def refusing (l : List (Nat × Nat)) : State := { s64 with sink := { cap := 64, refused := l } }

/-- The same with pending host actions. -/
def withPending (l : List HostAction) : State := s64.setPending l

/-- The same with a word on the command port. -/
def withWord (w : CmdWord) : State := s64.issue w

/-- A run of the reference host in a given phase. -/
def runIn (dir : Direction) (ph : Phase) : StreamRun := { newRun dir [] with phase := ph, wp := 44 }

/-! ## Smoke tests of the checks -/

/-- 30_encoding.md R84: an unknown opcode is refused. -/
theorem test_legalWord_refuses_opcode : legalWord 0x0500000000#40 = false ∧ legalWord 0x0000000000#40 = false := by decide

/-- 95 section 2.7: reserved bits of ENC, DEC and HDR_BUILD are refused. -/
theorem test_legalWord_refuses_reserved :
    legalWord 0x0100010000#40 = false ∧ legalWord 0x0180000000#40 = false ∧ legalWord 0x0200000100#40 = false ∧
    legalWord 0x0300000002#40 = false ∧ legalWord 0x0300000007#40 = false := by decide

/-- 95 section 2.7: the nearest legal words. -/
theorem test_legalWord_accepts :
    legalWord 0x010000FFFF#40 = true ∧ legalWord 0x02000000FF#40 = true ∧ legalWord 0x0300000001#40 = true ∧
    legalWord 0x04FF000000#40 = true := by decide

/-- 00_scope.md R9: FRAME_CAP of 43 is refused, 44 is allowed. -/
theorem test_frameCapOk : frameCapOk 43 = false ∧ frameCapOk 44 = true := by decide

/-- 30_encoding.md R84: every operand value inside the fields is legal. -/
theorem test_wellFormed : (Instr.enc 0x8000#16).wellFormed = true ∧ (Instr.hdrPatch 0xFFFFFFFF#32).wellFormed = true := by
  decide

/-! ## Decoding: words written out bit by bit from 30_encoding.md R81 -/

/-- ENC -1000 (95 program P3 line 4). -/
theorem test_decode_enc : decode 0b0000000100000000000000001111110000011000#40 = .ok (.enc 0xFC18#16) := by rfl

/-- DEC 0xAF (95 program P3 line 2). -/
theorem test_decode_dec : decode 0b0000001000000000000000000000000010101111#40 = .ok (.dec 0xAF#8) := by rfl

/-- HDR_BUILD MULAW (95 section 2.5). -/
theorem test_decode_hdrBuild : decode 0b0000001100000000000000000000000000000001#40 = .ok (.hdrBuild .mulaw) := by rfl

/-- HDR_PATCH 305419896 (95 section 2.6). -/
theorem test_decode_hdrPatch : decode 0b0000010000010010001101000101011001111000#40 = .ok (.hdrPatch 0x12345678#32) := by
  rfl

/-- 95 section 2.7. -/
theorem test_decode_illegal :
    decode 0xFF00000000#40 = .error (.unknownOpcode 0xFF#8) ∧ decode 0x0180000000#40 = .error (.reservedBits "ENC") ∧
    decode 0x0200000100#40 = .error (.reservedBits "DEC") ∧ decode 0x0300000007#40 = .error (.reservedBits "HDR_BUILD") :=
  ⟨rfl, rfl, rfl, rfl⟩

/-- The table's numbering (spec/opcode_table.json). -/
theorem test_decodeTableWord :
    decodeTableWord 40 0x0300000001 = some (.hdrBuild .mulaw) ∧ decodeTableWord 40 0x0500000000 = none := ⟨rfl, rfl⟩

/-! ## One step of each command -/

/-- ENC -1000 answers 0x2F (95 section 2.1). -/
theorem test_step_enc : responseOf (step (withWord 0x010000FC18#40)) = some (.ok (.code 0x2F#8)) := by decide

/-- Samples at the edges of segments and of the clamp (95 section 2.1). -/
theorem test_enc_edges :
    [0, 30, 31, 94, 95, 4062, 4063, 7902, 7903, 8159, 32767, 32768, 65535].map (fun n => encodeSample (BitVec.ofNat 16 n)) =
      [0xFF#8, 0xF0#8, 0xEF#8, 0xE0#8, 0xDF#8, 0x90#8, 0x8F#8, 0x81#8, 0x80#8, 0x80#8, 0x80#8, 0x00#8, 0x7E#8] := by decide

/-- DEC 0x2A answers -1343 (95 section 2.2). -/
theorem test_step_dec : responseOf (step (withWord 0x020000002A#40)) = some (.ok (.sample 0xFAC1#16)) := by decide

/-- Both zeros, both extremes and a middle value (95 section 3). -/
theorem test_dec_values :
    [0xFF#8, 0x7F#8, 0x80#8, 0x00#8, 0x55#8].map (fun c => (decodeCode c).toInt) = [0, 0, 8031, -8031, -179] := by decide

/-- HDR_BUILD PCM answers the 44 bytes of 42_wave_header.md R142 as one line. -/
theorem test_step_hdrBuild_pcm : responseOf (step (withWord 0x0300000000#40)) = some (.ok (.header
    [0x52#8, 0x49#8, 0x46#8, 0x46#8, 0x00#8, 0x00#8, 0x00#8, 0x00#8, 0x57#8, 0x41#8, 0x56#8, 0x45#8, 0x66#8, 0x6D#8,
     0x74#8, 0x20#8, 0x10#8, 0x00#8, 0x00#8, 0x00#8, 0x01#8, 0x00#8, 0x01#8, 0x00#8, 0x40#8, 0x1F#8, 0x00#8, 0x00#8,
     0x80#8, 0x3E#8, 0x00#8, 0x00#8, 0x02#8, 0x00#8, 0x10#8, 0x00#8, 0x64#8, 0x61#8, 0x74#8, 0x61#8, 0x00#8, 0x00#8,
     0x00#8, 0x00#8])) := by decide

/-- The two templates differ in exactly the five offsets of 42_wave_header.md R143. -/
theorem test_templates_differ :
    (List.range 44).filter (fun i => decide ((template .pcm)[i]? ≠ (template .mulaw)[i]?)) = [20, 28, 29, 32, 34] := by
  decide

/-- HDR_PATCH 4 on a store where nothing was written (95 section 2.6, last paragraph). -/
theorem test_step_hdrPatch_fresh :
    (nextOf (step (withWord 0x0400000004#40))).map (fun t =>
      (t.respPort, t.memRead 40 4, t.memRead 4 4, t.memRead 0 4, t.frame.flen)) =
      some (some (.ok .nothing), some 4, some 40, none, 44) := by decide

/-- HDR_PATCH 4 when the sink refuses only the write at 4 (95 section 2.6, refused writes). -/
theorem test_step_hdrPatch_refused :
    (nextOf (step ((refusing [(4, 4)]).issue 0x0400000004#40))).map (fun t => (t.respPort, t.memRead 40 4, t.memRead 4 4)) =
      some (some (.fault (.sinkWrite 4)), some 4, none) := by decide

/-- An illegal word answers Fault(IllegalCommand), code 1, and writes nothing (95 section 2.7). -/
theorem test_step_illegal :
    (nextOf (step (withWord 0x0100010000#40))).map (fun t => (t.respPort, t.respPort.map Response.number, t.frame)) =
      some (some (.fault (.illegalCommand 0x0100010000#40)), some 1#8, []) := by decide

/-! ## One turn of the host -/

/-- PUT past FRAME_CAP is refused (20_memory.md R46). -/
theorem test_put_refused :
    (nextOf (step (withPending [.put 63 [1#8, 2#8]]))).map (fun t => (t.host.answer, t.frame)) =
      some (some (.put false), []) := by decide

/-- PUT of DEC's result stores 2 bytes, low byte first (30_encoding.md R87; 95 program P2 line 6). -/
theorem test_put_result_dec :
    (nextOf (step ((withPending [.putResult 46]).answerOk (.sample 0x1F5F#16)))).map (fun t => t.frame) =
      some [(46, 0x5F#8), (47, 0x1F#8)] := by decide

/-- The two source bytes of a sample, low byte first: `E8 03` is ENC 1000 (95 program P5). -/
theorem test_stream_loop_operand :
    (nextOf (step (s64.setRun { newRun .encode [0xE8#8, 0x03#8, 0x9C#8] with phase := .loop }))).map (fun t => t.cmdPort) =
      some (some 0x01000003E8#40) := by decide

/-- A last odd byte ends the loop (43_stream_sequences.md R173; 95 program P5). -/
theorem test_stream_odd_byte :
    (nextOf (step (s64.setRun { newRun .encode [0xE8#8, 0x03#8, 0x9C#8] with phase := .loop, rp := 2 }))).map
      (fun t => (t.cmdPort, t.host.run.map StreamRun.phase)) = some (none, some .patch) := by decide

/-! ## Script lines (30_encoding.md R86, R87) -/

/-- `ENC  -1000 ; x` and its alias `Encode 0xFC18` (95 program P3 line 4). -/
theorem test_assemble_enc :
    assembleLine ['E', 'N', 'C', ' ', ' ', '-', '1', '0', '0', '0', ' ', ';', ' ', 'x'] =
      some (some (.issue 0x010000FC18#40)) ∧
    assembleLine ['E', 'n', 'c', 'o', 'd', 'e', ' ', '0', 'x', 'F', 'C', '1', '8'] =
      some (some (.issue 0x010000FC18#40)) := by decide

/-- `PUT 44, RESULT` and `PUT 0, 52 49`. -/
theorem test_assemble_put :
    assembleLine ['P', 'U', 'T', ' ', '4', '4', ',', ' ', 'R', 'E', 'S', 'U', 'L', 'T'] = some (some (.putResult 44)) ∧
    assembleLine ['P', 'U', 'T', ' ', '0', ',', ' ', '5', '2', ' ', '4', '9'] = some (some (.put 0 [0x52#8, 0x49#8])) := by
  decide

/-- `DEC 256` and `HDR_BUILD 7` are not of the syntax. -/
theorem test_assemble_rejects :
    assembleLine ['D', 'E', 'C', ' ', '2', '5', '6'] = none ∧
    assembleLine ['H', 'D', 'R', '_', 'B', 'U', 'I', 'L', 'D', ' ', '7'] = none := by decide

/-! ## Witnesses: for each statement with hypotheses, values that meet them -/

theorem witness_EncodeOfDecode : decode 0x04FFFFFFFF#40 = .ok (.hdrPatch 0xFFFFFFFF#32) := rfl

/-- Each way of being illegal at its boundary, and the nearest legal words. -/
theorem witness_IllegalWordsAnswerIllegalCommand :
    (withWord 0x00FFFFFFFF#40).cmdPort = some 0x00FFFFFFFF#40 ∧
    (0x00FFFFFFFF#40).toNat / 2 ^ 32 = 0 ∧ 5 ≤ (0x0500000000#40).toNat / 2 ^ 32 ∧
    ((0x0100010000#40).toNat / 2 ^ 32 = 1 ∧ 2 ^ 16 ≤ (0x0100010000#40).toNat % 2 ^ 32) ∧
    ((0x0200000100#40).toNat / 2 ^ 32 = 2 ∧ 2 ^ 8 ≤ (0x0200000100#40).toNat % 2 ^ 32) ∧
    ((0x0300000002#40).toNat / 2 ^ 32 = 3 ∧ 2 ≤ (0x0300000002#40).toNat % 2 ^ 32) ∧
    ¬(2 ^ 16 ≤ (0x010000FFFF#40).toNat % 2 ^ 32) ∧ ¬(2 ^ 8 ≤ (0x02000000FF#40).toNat % 2 ^ 32) ∧
    ¬(2 ≤ (0x0300000001#40).toNat % 2 ^ 32) ∧ ¬(5 ≤ (0x04FFFFFFFF#40).toNat / 2 ^ 32) := by decide

theorem witness_StepExecutesTheDecodedCommand :
    (withWord 0x02000000AF#40).cmdPort = some 0x02000000AF#40 ∧ decode 0x02000000AF#40 = .ok (.dec 0xAF#8) := ⟨rfl, rfl⟩

theorem witness_EveryWordIsAnswered : (withWord 0x0500000000#40).cmdPort = some 0x0500000000#40 := rfl

theorem witness_IdleMachineStays : s64.hostFree ∧ s64.host.pending = [] := ⟨⟨rfl, .inl rfl⟩, rfl⟩

/-- Both ends of the scan's range, and a bit above the position. -/
theorem witness_ScanFindsTheLeadingBit :
    32 ≤ 32 ∧ 8191 ≤ 8191 ∧ position 32 < 6 ∧ 6 ≤ 12 ∧ 31 < 32 := by decide

/-- Both ends of the first and of the last row, on both sides of zero. -/
theorem witness_EncFollowsTheSegmentTable :
    (0#16).toInt.natAbs = 0 ∧ (0xFFE2#16).toInt.natAbs = 30 ∧ (0x0FDF#16).toInt.natAbs = 4063 ∧
    (0x8000#16).toInt.natAbs = 32768 ∧ 0 ≤ (0x0FDF#16).toInt ∧ (0x8000#16).toInt < 0 := by decide

theorem witness_EncSaturates :
    7903 ≤ (0x1EDF#16).toInt ∧ (0xE121#16).toInt ≤ -7903 ∧ (0x1FDE#16).toInt.natAbs = 8158 ∧
    8159 ≤ (0xE021#16).toInt.natAbs := by decide

theorem witness_EncSignSymmetry : (0x7FFF#16).toInt ≠ 0 ∧ (0x8001#16).toInt = -(0x7FFF#16).toInt := by decide

theorem witness_EncIsMonotone :
    (0x8000#16).toInt ≤ (0xFFFF#16).toInt ∧ (0xFFFF#16).toInt < 0 ∧ (0#16).toInt ≤ (0x7FFF#16).toInt ∧ 0 ≤ (0#16).toInt := by
  decide

theorem witness_DecClosedForm : (0x7F#8).toNat = (0x7E#8).toNat + 1 ∧ (0x7F#8).toNat / 16 = (0x7E#8).toNat / 16 := by decide

theorem witness_DecSignSymmetry : (0x0001#16).toInt = -(0xFFFF#16).toInt := by decide

theorem witness_DecRange :
    (0xFF#8 : Code) ≠ 0x7F#8 ∧ responseOf (exec (.dec 0xFF#8) s64) = responseOf (exec (.dec 0x7F#8) s64) := by decide

theorem witness_RoundTripErrorBound : (0xE022#16).toInt.natAbs ≤ 8158 ∧ 8159 ≤ (0x1FDF#16).toInt.natAbs := by decide

theorem witness_ReencodingIsTheIdentity :
    ∃ t, exec (.dec 0xAF#8) s64 = .next t ∧ t.respPort = some (.ok (.sample 0x03FF#16)) := ⟨_, rfl, by decide⟩

theorem witness_PureCommandsAnswerAlike : ∀ n, Instr.hdrBuild .pcm ≠ .hdrPatch n := fun _ h => nomatch h

/-- The four clauses of HDR_PATCH at their boundaries. -/
theorem witness_HdrPatchFollowsItsPseudocode :
    0xFFFFFFDB < (0xFFFFFFDC#32).toNat ∧ (0xFFFFFFDB#32).toNat ≤ 0xFFFFFFDB ∧
    (refusing [(40, 4)]).sink.accepts 40 4 = false ∧
    ((refusing [(4, 4)]).sink.accepts 40 4 = true ∧ (refusing [(4, 4)]).sink.accepts 4 4 = false) ∧
    (s64.sink.accepts 40 4 = true ∧ s64.sink.accepts 4 4 = true) ∧
    44 ≤ s64.sink.cap ∧ s64.sink.refused = [] := by decide

/-- A first patch that is accepted, one out of range and one the sink refuses; a second patch at both sides of the bound. -/
theorem witness_SecondPatchReplacesTheFirst :
    (∃ t, exec (.hdrPatch 160#32) s64 = .next t ∧ t.respPort = some (.ok .nothing)) ∧
    (∃ t, exec (.hdrPatch 0xFFFFFFDC#32) s64 = .next t) ∧ (∃ t, exec (.hdrPatch 160#32) (refusing [(4, 4)]) = .next t) ∧
    (0xFFFFFFDB#32).toNat ≤ 0xFFFFFFDB ∧ 0xFFFFFFDB < (0xFFFFFFDC#32).toNat :=
  ⟨⟨_, rfl, by decide⟩, ⟨_, rfl⟩, ⟨_, rfl⟩, by decide, by decide⟩

theorem witness_SizeWritesCommute : s64.sink.acceptsPatch := by decide

theorem witness_CommandsChangeOnlyWhatTheirRulesName : ∃ t, exec (.hdrPatch 4#32) s64 = .next t := ⟨_, rfl⟩

/-- Two states that differ in the store, the host and the log; and, for the last clause, two with equal stores. -/
theorem witness_BlockSeesOnlyStoreSinkAndWord :
    let s := withWord 0x0400000004#40
    let s' : State := { s.setPending [.reset] with frame := [(3, 7#8), (5, 1#8)], faultLog := [.sinkWrite 4] }
    s.cmdPort = some 0x0400000004#40 ∧ s'.cmdPort = some 0x0400000004#40 ∧ s.sink = s'.sink ∧ s.frame ≠ s'.frame ∧
    s.frame = (s.setPending [.reset]).frame := by decide

theorem witness_OnlyPatchAndHostWriteTheStore :
    ∃ t, step (withWord 0x0400000004#40) = .next t ∧ t.frame ≠ (withWord 0x0400000004#40).frame := ⟨_, rfl, by decide⟩

theorem witness_MemWriteStoresLittleEndian : s64.sink.accepts 60 4 = true ∧ 3 < 4 ∧ 64 ≤ 64 := by decide

/-- A read with a value and one without. -/
theorem witness_MemReadIsLittleEndianOrNothing :
    (s64.memWrite 60 2 0x0102).bind (fun t => t.memRead 60 2) = some 0x0102 ∧
    (s64.memWrite 60 2 0x0102).bind (fun t => t.frame.read 62) = none := by decide

theorem witness_StoresNeverTruncate :
    Memory.read [(3, 7#8)] 3 ≠ none ∧ ∃ t, s64.store 60 [1#8, 2#8] = some t := ⟨by decide, _, rfl⟩

theorem witness_HeaderAfterPatchWipesTheSizes : ∃ t, s64.store 0 (template .mulaw) = some t := ⟨_, rfl⟩

theorem witness_StepKeepsTheStoreInvariant :
    (withWord 0x0400000004#40).FrameInv ∧ ∃ t, step (withWord 0x0400000004#40) = .next t := ⟨by decide, _, rfl⟩

theorem witness_StepKeepsOneCommandInFlight :
    (withPending [.issue 0x0100000000#40]).PortInv ∧ ∃ t, step (withPending [.issue 0x0100000000#40]) = .next t :=
  ⟨by decide, _, rfl⟩

theorem witness_StepKeepsTheOpenParameters : ∃ t, step (withPending [.reset]) = .next t := ⟨_, rfl⟩

/-- A step that keeps a written byte, and one that is the RESET. -/
theorem witness_WrittenBytesStayWrittenUntilReset :
    (∃ t, step { withPending [.reset] with frame := [(0, 1#8)] } = .next t) ∧
    ∃ t, step { withPending [.put 0 [2#8]] with frame := [(0, 1#8)] } = .next t := ⟨⟨_, rfl⟩, _, rfl⟩

theorem witness_HostActionsActAsTheSpecSays :
    (withPending [.issue 0x0500000000#40]).hostFree ∧ s64.sink.accepts 60 ([1#8, 2#8, 3#8, 4#8] : List Byte).length = true ∧
    s64.sink.accepts 61 ([1#8, 2#8, 3#8, 4#8] : List Byte).length = false :=
  ⟨⟨rfl, .inl rfl⟩, by decide, by decide⟩

/-- The read clause, with a value at the end of the store and with none over an unwritten byte, and the RESET clause over a
store that holds a byte. -/
theorem witness_HostActionsActAsTheSpecSays_read_reset :
    let s : State := { withPending [.read 62 2] with frame := [(62, 1#8), (63, 2#8)] }
    let t : State := { withPending [.read 61 2] with frame := [(62, 1#8)] }
    let u : State := { withPending [.reset] with frame := [(62, 1#8)] }
    s.hostFree ∧ s.host.pending = .read 62 2 :: [] ∧ s.memRead 62 2 = some 0x0201 ∧
    t.hostFree ∧ t.host.pending = .read 61 2 :: [] ∧ t.memRead 61 2 = none ∧
    u.hostFree ∧ u.host.pending = .reset :: [] ∧ u.frame ≠ [] :=
  ⟨⟨rfl, .inl rfl⟩, rfl, by decide, ⟨rfl, .inl rfl⟩, rfl, by decide, ⟨rfl, .inl rfl⟩, rfl, by decide⟩

theorem witness_PutResultStoresThePreviousBytes :
    (withPending [.putResult 44]).hostFree ∧ (withPending [.putResult 44]).host.pending = .putResult 44 :: [] ∧
    ((withPending [.putResult 44]).answerOk (.code 0xFF#8)).respPort = some (.ok (.code 0xFF#8)) ∧
    (withPending [.putResult 44]).respPort = none := ⟨⟨rfl, .inl rfl⟩, rfl, rfl, rfl⟩

theorem witness_EncodeStreamWritesTheMulawFrame :
    let src : List Byte := List.replicate 47 0#8
    let s := withPending [.encodeStream (some src)]
    s.hostFree ∧ s.frame = [] ∧ s.host.pending = .encodeStream (some src) :: [] ∧ s.host.params.encSkip ≤ src.length ∧
    s.sink.refused = [] ∧ 44 + (src.length - s.host.params.encSkip) / 2 ≤ s.sink.cap ∧
    (src.length - s.host.params.encSkip) / 2 ≤ 0xFFFFFFDB :=
  ⟨⟨rfl, .inl rfl⟩, rfl, rfl, by decide, rfl, by decide, by decide⟩

/-- A source shorter than its prefix, which the host takes as no error: the payload is empty. -/
theorem witness_EncodeStreamWritesTheMulawFrame_short :
    let src : List Byte := List.replicate 43 0#8
    let s := withPending [.encodeStream (some src)]
    s.hostFree ∧ s.frame = [] ∧ s.host.pending = .encodeStream (some src) :: [] ∧ src.length < s.host.params.encSkip ∧
    s.host.params.shortSkipIsError = false ∧ s.sink.refused = [] ∧
    44 + (src.length - s.host.params.encSkip) / 2 ≤ s.sink.cap ∧ (src.length - s.host.params.encSkip) / 2 ≤ 0xFFFFFFDB :=
  ⟨⟨rfl, .inl rfl⟩, rfl, rfl, by decide, rfl, rfl, by decide, by decide⟩

theorem witness_DecodeStreamWritesThePcmFrame :
    let src : List Byte := List.replicate 61 0#8
    let s := withPending [.decodeStream (some src)]
    s.hostFree ∧ s.frame = [] ∧ s.host.pending = .decodeStream (some src) :: [] ∧ s.host.params.decSkip ≤ src.length ∧
    s.sink.refused = [] ∧ 44 + 2 * (src.length - s.host.params.decSkip) ≤ s.sink.cap ∧
    2 * (src.length - s.host.params.decSkip) ≤ 0xFFFFFFDB :=
  ⟨⟨rfl, .inl rfl⟩, rfl, rfl, by decide, rfl, by decide, by decide⟩

/-- A source shorter than its prefix, which the host takes as no error: the payload is empty. -/
theorem witness_DecodeStreamWritesThePcmFrame_short :
    let src : List Byte := List.replicate 55 0#8
    let s := withPending [.decodeStream (some src)]
    s.hostFree ∧ s.frame = [] ∧ s.host.pending = .decodeStream (some src) :: [] ∧ src.length < s.host.params.decSkip ∧
    s.host.params.shortSkipIsError = false ∧ s.sink.refused = [] ∧
    44 + 2 * (src.length - s.host.params.decSkip) ≤ s.sink.cap ∧ 2 * (src.length - s.host.params.decSkip) ≤ 0xFFFFFFDB :=
  ⟨⟨rfl, .inl rfl⟩, rfl, rfl, by decide, rfl, rfl, by decide, by decide⟩

/-- A source one byte short, with the parameter false as at reset, and true. -/
theorem witness_ShortSourceFollowsTheParameter :
    let r := newRun .decode (List.replicate 55 0#8)
    let strict : State :=
      { s64 with host := { s64.host with params := { s64.host.params with shortSkipIsError := true }, run := some r } }
    (s64.setRun r).cmdPort = none ∧ (s64.setRun r).host.run = some r ∧ r.phase = .skip ∧
    r.src.length < (s64.setRun r).host.params.skipOf r.dir ∧ (s64.setRun r).host.params.shortSkipIsError = false ∧
    strict.cmdPort = none ∧ strict.host.run = some r ∧ r.src.length < strict.host.params.skipOf r.dir ∧
    strict.host.params.shortSkipIsError = true := by decide

theorem witness_UnopenedStreamNeverStarts :
    (withPending [.decodeStream none]).hostFree ∧ (withPending [.decodeStream none]).host.pending = .decodeStream none :: [] :=
  ⟨⟨rfl, .inl rfl⟩, rfl⟩

/-- A run whose header PUT is refused, and one whose payload PUT is refused at the end of the store. -/
theorem witness_RefusedPutStopsTheRun :
    let s : State := ((refusing [(0, 44)]).setRun (runIn .encode .putHeader)).answerOk (.header (template .mulaw))
    let r := { runIn .encode .putUnit with wp := 64 }
    let t : State := (s64.setRun r).answerOk (.code 0xFF#8)
    s.cmdPort = none ∧ s.host.run = some (runIn .encode .putHeader) ∧ s.resultBytes = some (template .mulaw) ∧
    (runIn .encode .putHeader).phase = .putHeader ∧ s.sink.accepts 0 (template .mulaw).length = false ∧
    t.cmdPort = none ∧ t.host.run = some r ∧ t.resultBytes = some [0xFF#8] ∧ r.phase = .putUnit ∧
    t.sink.accepts r.wp ([0xFF#8] : List Byte).length = false := by decide

/-- A run that finds Fault(SinkWrite) in the response to HDR_PATCH, and runs before the patch on a sink that refuses its
first write or only its second, at the largest count. -/
theorem witness_RefusedPutStopsTheRun_patch :
    let q := { runIn .encode .patch with cnt := 0xFFFFFFDB#32 }
    let s : State := (s64.setRun (runIn .encode .finish)).raise (.sinkWrite 4)
    let t : State := (refusing [(40, 4)]).setRun q
    let u : State := (refusing [(4, 4)]).setRun q
    s.cmdPort = none ∧ s.host.run = some (runIn .encode .finish) ∧ (runIn .encode .finish).phase = .finish ∧
    s.respPort = some (.fault (.sinkWrite 4)) ∧
    t.cmdPort = none ∧ t.host.run = some q ∧ q.phase = .patch ∧ q.cnt.toNat ≤ 0xFFFFFFDB ∧
    t.sink.accepts 40 4 = false ∧
    u.cmdPort = none ∧ u.host.run = some q ∧ u.sink.accepts 40 4 = true ∧ u.sink.accepts 4 4 = false := by decide

/-- A run at the largest count, and one just below it. -/
theorem witness_PayloadOverTheCountIsRefused :
    let r := { runIn .encode .putUnit with cnt := 0xFFFFFFDB#32 }
    let q := { runIn .encode .putUnit with cnt := 0xFFFFFFDA#32 }
    let s : State := (s64.setRun r).answerOk (.code 0xFF#8)
    s.cmdPort = none ∧ s.host.run = some r ∧ r.phase = .putUnit ∧ s.resultBytes = some [0xFF#8] ∧
    s.sink.accepts r.wp ([0xFF#8] : List Byte).length = true ∧ 0xFFFFFFDB < r.cnt.toNat + r.dir.writeSize ∧
    q.cnt.toNat + q.dir.writeSize ≤ 0xFFFFFFDB := by decide

theorem witness_AssembledCommandsAreLegal :
    assembleLine ['E', 'N', 'C', ' ', '0'] = some (some (.issue 0x0100000000#40)) := by decide

/-- Each line of the cause table, the counts at both sides of the bound. -/
theorem witness_ResponsesFollowTheCauseTable :
    (withWord 0x0400000004#40).cmdPort = some 0x0400000004#40 ∧ legalWord 0x0100010000#40 = false ∧
    (legalWord 0x04FFFFFFDC#40 = true ∧ (0x04FFFFFFDC#40).toNat / 2 ^ 32 = 4 ∧
      0xFFFFFFDB < (0x04FFFFFFDC#40).toNat % 2 ^ 32) ∧
    (legalWord 0x04FFFFFFDB#40 = true ∧ (0x04FFFFFFDB#40).toNat / 2 ^ 32 = 4 ∧
      ¬(0xFFFFFFDB < (0x04FFFFFFDB#40).toNat % 2 ^ 32)) ∧
    (refusing [(40, 4)]).sink.accepts 40 4 = false ∧
    ((refusing [(4, 4)]).sink.accepts 40 4 = true ∧ (refusing [(4, 4)]).sink.accepts 4 4 = false) ∧
    s64.sink.acceptsPatch := by decide

/-- The digits at the ends of the ranges: 32767, 32768, 0xFFFFFFFF in decimal, and 0xFFFF, 0xFF, 0xFFFFFFFF. -/
theorem witness_CommandLinesAssembleToTheirWords :
    numeral 10 [3, 2, 7, 6, 7] = 32767 ∧ numeral 10 [3, 2, 7, 6, 8] = 32768 ∧
    numeral 10 [4, 2, 9, 4, 9, 6, 7, 2, 9, 5] = 0xFFFFFFFF ∧ (∀ d ∈ [4, 2, 9, 4, 9, 6, 7, 2, 9, 5], d < 10) ∧
    numeral 16 [15, 15, 15, 15] = 0xFFFF ∧ numeral 16 [15, 15] = 0xFF ∧
    numeral 16 [15, 15, 15, 15, 15, 15, 15, 15] = 0xFFFFFFFF ∧ (∀ d ∈ [15, 15, 15, 15], d < 16) := by decide

end Sys2Proof.Tests
end

/-! ## The open parameters are never changed

The block's turn writes neither the host's side nor the sink. The host's turn writes its own side (pending actions, answer,
stream run) and never its parameters. The inversion lemmas of the two PUT lines come first: each is a `hostPut` and a new
run. -/

namespace Sys2Proof.Machine

/-! ### What the PUT lines of a stream run do -/

theorem turnPutHeader_of_no_result {s : State} (r : StreamRun) (h : s.resultBytes = none) :
    turnPutHeader r s = .refused .noResult := by
  simp [turnPutHeader, h]

/-- With result bytes, the header's PUT is that of the host, and the run goes on or fails with it
(43_stream_sequences.md R172, R178, R184). -/
theorem turnPutHeader_of_result {s : State} {bytes : List Byte} (r : StreamRun) (h : s.resultBytes = some bytes) :
    turnPutHeader r s = .next ((hostPut 0 bytes s).setRun
      (if s.sink.accepts 0 bytes.length then { r with wp := Config.hdrLen, phase := .loop }
        else { r with phase := .failed (.sinkWrite 0) })) := by
  rcases State.store_cases s 0 bytes with ⟨ha, he⟩ | ⟨ha, he⟩ <;> simp [turnPutHeader, hostPut, h, ha, he]

theorem turnPutUnit_of_no_result {s : State} (r : StreamRun) (h : s.resultBytes = none) :
    turnPutUnit r s = .refused .noResult := by
  simp [turnPutUnit, h]

/-- An accepted unit that would carry the payload over its bound is refused by name (43_stream_sequences.md R187). -/
theorem turnPutUnit_of_overlong {s : State} {r : StreamRun} {bytes : List Byte} (h : s.resultBytes = some bytes)
    (ha : s.sink.accepts r.wp bytes.length = true) (hc : Config.maxCount < r.cnt.toNat + r.dir.writeSize) :
    turnPutUnit r s = .refused .payloadTooLong := by
  simp [turnPutUnit, h, State.store_accepted ha, hc]

/-- Any other unit's PUT is that of the host, and the run counts the unit or fails
(43_stream_sequences.md R172, R178, R184). -/
theorem turnPutUnit_of_result {s : State} {r : StreamRun} {bytes : List Byte} (h : s.resultBytes = some bytes)
    (hc : s.sink.accepts r.wp bytes.length = true → r.cnt.toNat + r.dir.writeSize ≤ Config.maxCount) :
    turnPutUnit r s = .next ((hostPut r.wp bytes s).setRun
      (if s.sink.accepts r.wp bytes.length then
        { r with wp := r.wp + r.dir.writeSize, cnt := r.cnt + BitVec.ofNat 32 r.dir.writeSize, phase := .loop }
        else { r with phase := .failed (.sinkWrite r.wp) })) := by
  rcases State.store_cases s r.wp bytes with ⟨ha, he⟩ | ⟨ha, he⟩
  · simp [turnPutUnit, hostPut, h, ha, he, Nat.not_lt.mpr (hc ha)]
  · simp [turnPutUnit, hostPut, h, ha, he]

/-- Whatever the header line hands on is a PUT of result bytes at 0 and a new run. -/
theorem turnPutHeader_next {r : StreamRun} {s t : State} (h : turnPutHeader r s = .next t) :
    ∃ bytes r', s.resultBytes = some bytes ∧ t = (hostPut 0 bytes s).setRun r' := by
  cases hb : s.resultBytes with
  | none => simp [turnPutHeader_of_no_result r hb] at h
  | some bytes =>
    rw [turnPutHeader_of_result r hb] at h
    cases h
    exact ⟨bytes, _, rfl, rfl⟩

/-- Whatever the unit line hands on is a PUT of result bytes at the write position and a new run. -/
theorem turnPutUnit_next {r : StreamRun} {s t : State} (h : turnPutUnit r s = .next t) :
    ∃ bytes r', s.resultBytes = some bytes ∧ t = (hostPut r.wp bytes s).setRun r' := by
  cases hb : s.resultBytes with
  | none => simp [turnPutUnit_of_no_result r hb] at h
  | some bytes =>
    have hc : s.sink.accepts r.wp bytes.length = true → r.cnt.toNat + r.dir.writeSize ≤ Config.maxCount := by
      intro ha
      by_contra hlt
      simp [turnPutUnit_of_overlong hb ha (Nat.not_le.mp hlt)] at h
    rw [turnPutUnit_of_result hb hc] at h
    cases h
    exact ⟨bytes, _, rfl, rfl⟩

/-! ### What the operations leave of the sink and the host's parameters -/

@[simp] theorem hostPut_sink (off : Nat) (bytes : List Byte) (s : State) : (hostPut off bytes s).sink = s.sink := by
  rcases hostPut_cases off bytes s with ⟨_, h⟩ | ⟨_, h⟩ <;> rw [h] <;> rfl

@[simp] theorem hostPut_params (off : Nat) (bytes : List Byte) (s : State) :
    (hostPut off bytes s).host.params = s.host.params := by
  rcases hostPut_cases off bytes s with ⟨_, h⟩ | ⟨_, h⟩ <;> rw [h] <;> rfl

@[simp] theorem patchSizes_sink (n : Count) (s : State) : (patchSizes n s).sink = s.sink := by
  rcases patchSizes_cases n s with ⟨_, h⟩ | ⟨_, _, h⟩ | ⟨_, h⟩ <;> rw [h] <;> rfl

@[simp] theorem patchSizes_host (n : Count) (s : State) : (patchSizes n s).host = s.host := by
  rcases patchSizes_cases n s with ⟨_, h⟩ | ⟨_, _, h⟩ | ⟨_, h⟩ <;> rw [h] <;> rfl

/-- Everything the start of a sequence can do: put a run in place. -/
theorem startStream_cases (dir : Direction) (src : Option (List Byte)) (s : State) :
    ∃ r, startStream dir src s = s.setRun r := by
  cases src <;> exact ⟨_, rfl⟩

/-! ### The block's turn -/

/-- A command writes neither the sink nor the host's side (10_state.md R29). -/
theorem exec_sink_host {i : Instr} {s t : State} (h : exec i s = .next t) : t.sink = s.sink ∧ t.host = s.host := by
  cases i with
  | enc x => rw [exec_enc] at h; cases h; exact ⟨rfl, rfl⟩
  | dec c => rw [exec_dec] at h; cases h; exact ⟨rfl, rfl⟩
  | hdrBuild k => rw [exec_hdrBuild] at h; cases h; exact ⟨rfl, rfl⟩
  | hdrPatch n =>
    rw [exec_hdrPatch] at h
    cases h
    split
    · exact ⟨rfl, rfl⟩
    · exact ⟨patchSizes_sink n s, patchSizes_host n s⟩

theorem blockTurn_sink_host {w : CmdWord} {s t : State} (h : blockTurn w s = .next t) :
    t.sink = s.sink ∧ t.host = s.host := by
  rcases blockTurn_cases w s with ⟨i, _, he⟩ | ⟨_, _, he⟩ <;> rw [he] at h
  · exact exec_sink_host (s := s.takeCommand) h
  · cases h; exact ⟨rfl, rfl⟩

/-! ### The host's turn -/

/-- `t` has the open parameters of `s`: FRAME_CAP and SinkRefuses in the sink, the other three on the host's side
(00_scope.md R9). -/
abbrev State.SameParams (s t : State) : Prop := t.sink = s.sink ∧ t.host.params = s.host.params

theorem hostAction_sameParams {a : HostAction} {s t : State} (h : hostAction a s = .next t) : s.SameParams t := by
  cases a with
  | issue w => cases h; exact ⟨rfl, rfl⟩
  | put off bytes => cases h; exact ⟨hostPut_sink off bytes s, hostPut_params off bytes s⟩
  | putResult off =>
    simp only [hostAction, hostPutResult] at h
    split at h
    · cases h; exact ⟨hostPut_sink .., hostPut_params ..⟩
    · cases h
  | read off n => cases h; exact ⟨rfl, rfl⟩
  | reset => cases h; exact ⟨rfl, rfl⟩
  | encodeStream src =>
    obtain ⟨r, hr⟩ := startStream_cases .encode src s
    cases h; rw [hr]; exact ⟨rfl, rfl⟩
  | decodeStream src =>
    obtain ⟨r, hr⟩ := startStream_cases .decode src s
    cases h; rw [hr]; exact ⟨rfl, rfl⟩

theorem runPending_sameParams {s t : State} (h : runPending s = .next t) : s.SameParams t := by
  rcases runPending_cases s with ⟨_, he⟩ | ⟨a, rest, _, he⟩ <;> rw [he] at h
  · cases h; exact ⟨rfl, rfl⟩
  · exact hostAction_sameParams (s := s.setPending rest) h

theorem streamTurn_sameParams {r : StreamRun} {s t : State} (h : streamTurn r s = .next t) : s.SameParams t := by
  unfold streamTurn at h
  cases hp : r.phase <;> rw [hp] at h
  case skip =>
    obtain ⟨r', he⟩ := turnSkip_cases r s
    cases h; rw [he]; exact ⟨rfl, rfl⟩
  case header => cases h; exact ⟨rfl, rfl⟩
  case putHeader =>
    obtain ⟨bytes, r', _, rfl⟩ := turnPutHeader_next h
    exact ⟨hostPut_sink .., hostPut_params ..⟩
  case loop =>
    rcases turnLoop_cases r s with ⟨r', i, he⟩ | ⟨r', he⟩ <;> cases h <;> rw [he] <;> exact ⟨rfl, rfl⟩
  case putUnit =>
    obtain ⟨bytes, r', _, rfl⟩ := turnPutUnit_next h
    exact ⟨hostPut_sink .., hostPut_params ..⟩
  case patch => cases h; exact ⟨rfl, rfl⟩
  case finish =>
    rcases turnFinish_cases r s with ⟨resp, _, he⟩ | ⟨_, he⟩ <;> simp only [he] at h <;> cases h
    exact ⟨rfl, rfl⟩
  case done => exact runPending_sameParams h
  case failed e => cases h

theorem hostTurn_sameParams {s t : State} (h : hostTurn s = .next t) : s.SameParams t := by
  cases hr : s.host.run with
  | none => rw [hostTurn_of_no_run hr] at h; exact runPending_sameParams h
  | some r => rw [hostTurn_of_run hr] at h; exact streamTurn_sameParams h

/-- Settles O44: the block's turn leaves the sink and the host as they are, and the host's turn keeps its parameters. -/
theorem stepKeepsTheOpenParameters : Obligations.StepKeepsTheOpenParameters := by
  intro s t h
  cases hw : s.cmdPort with
  | some w =>
    rw [step_of_cmdPort hw] at h
    obtain ⟨hsink, hhost⟩ := blockTurn_sink_host h
    exact ⟨hsink, by rw [hhost]⟩
  | none =>
    rw [step_of_idle hw] at h
    exact hostTurn_sameParams h

end Sys2Proof.Machine

/-! ## The frame store: what the block and the host write

The block's turn is summed up by two functions of the sink and the word alone: the writes it makes and the response it gives
(`wordWrites`, `wordResponse`). `blockTurn_eq_effect` ties them to the model. The host's turn stores bytes the sink accepts,
or is a RESET (`hostTurn_frame_cases`). The obligations on the store follow from these two. -/

namespace Sys2Proof.Machine

/-! ### A list of writes to the store -/

/-- A write: the bytes and the offset of the first one. -/
abbrev FrameWrite := Nat × List Byte

/-- The write covers the offset. -/
abbrev FrameWrite.covers (p : FrameWrite) (a : Nat) : Prop := p.1 ≤ a ∧ a < p.1 + p.2.length

/-- Make the writes in order. -/
def Memory.writeAll : Memory → List FrameWrite → Memory
  | m, [] => m
  | m, p :: ws => Memory.writeAll (m.writeBytes p.1 p.2) ws

/-- An offset that no write covers reads as before. -/
theorem Memory.read_writeAll_outside {ws : List FrameWrite} {a : Nat} (h : ∀ p ∈ ws, ¬p.covers a) (m : Memory) :
    (m.writeAll ws).read a = m.read a := by
  induction ws generalizing m with
  | nil => rfl
  | cons p ws ih =>
    have hp : a < p.1 ∨ p.1 + p.2.length ≤ a := by
      have := h p (List.mem_cons_self ..)
      omega
    rw [Memory.writeAll, ih fun q hq => h q (List.mem_cons_of_mem _ hq)]
    exact Memory.read_writeBytes_outside _ _ _ _ hp

/-- What a write leaves at an offset does not depend on the store: the offset reads as before in every store, or as one and
the same byte in every store. -/
theorem Memory.read_writeAll_uniform (ws : List FrameWrite) (a : Nat) :
    (∀ m : Memory, (m.writeAll ws).read a = m.read a) ∨ ∃ b, ∀ m : Memory, (m.writeAll ws).read a = some b := by
  induction ws with
  | nil => exact .inl fun _ => rfl
  | cons p ws ih =>
    rcases ih with hkeep | ⟨b, hb⟩
    · by_cases hc : p.covers a
      · obtain ⟨k, rfl⟩ := Nat.exists_eq_add_of_le hc.1
        have hk : k < p.2.length := by omega
        exact .inr ⟨p.2[k], fun m => (hkeep _).trans (Memory.read_writeBytes_inside _ _ _ _ hk)⟩
      · exact .inl fun m => (hkeep _).trans (Memory.read_writeBytes_outside _ _ _ _ (by omega))
    · exact .inr ⟨b, fun m => hb _⟩

/-! ### The store invariant -/

/-- The store invariant reads the frame and the sink only. -/
theorem State.FrameInv.congr {s t : State} (hi : s.FrameInv) (hf : t.frame = s.frame) (hs : t.sink = s.sink) :
    t.FrameInv := by
  rwa [State.FrameInv, hf, hs]

/-- Writes the sink accepts keep the store invariant. -/
theorem State.FrameInv.writeAll {ws : List FrameWrite} {s : State} (hi : s.FrameInv)
    (h : ∀ p ∈ ws, s.sink.accepts p.1 p.2.length = true) :
    State.FrameInv { s with frame := s.frame.writeAll ws } := by
  induction ws generalizing s with
  | nil => exact hi
  | cons p ws ih =>
    have hp := State.store_frameInv (State.store_accepted (h p (List.mem_cons_self ..))) hi
    exact ih hp fun q hq => h q (List.mem_cons_of_mem _ hq)

/-- An empty store meets the invariant whenever FRAME_CAP is allowed. -/
theorem State.frameInv_of_empty {s : State} (hf : s.frame = []) (hcap : Config.hdrLen ≤ s.sink.cap) : s.FrameInv := by
  rw [State.FrameInv, hf]
  exact ⟨List.Pairwise.nil, by simp, hcap⟩

/-! ### What a command writes and answers -/

/-- The cause a response adds to the model's log (60_exceptions.md R203; notes/assumptions/6.md). -/
def Response.causes : Response → List Cause
  | .ok _ => []
  | .fault c => [c]

/-- The state after writes and a response: all that a command changes (10_state.md R29). -/
def State.effect (s : State) (ws : List FrameWrite) (r : Response) : State :=
  { s with frame := s.frame.writeAll ws, respPort := some r, faultLog := r.causes ++ s.faultLog }

/-- The writes of HDR_PATCH in range, as far as the sink lets it come (42_wave_header.md R150, R152). -/
def patchWrites (k : Sink) (n : Count) : List FrameWrite :=
  if k.accepts 40 4 then
    (40, leBytes 4 n.toNat) :: (if k.accepts 4 4 then [(4, leBytes 4 (n.toNat + 36))] else [])
  else []

/-- The response of HDR_PATCH in range (42_wave_header.md R150, R152). -/
def patchResponse (k : Sink) : Response :=
  if k.accepts 40 4 then if k.accepts 4 4 then .ok .nothing else .fault (.sinkWrite 4)
  else .fault (.sinkWrite 40)

/-- The writes a command makes. -/
def commandWrites (k : Sink) : Instr → List FrameWrite
  | .hdrPatch n => if 0xFFFFFFDB < n.toNat then [] else patchWrites k n
  | _ => []

/-- The response a command gives. -/
def commandResponse (k : Sink) : Instr → Response
  | .enc x => .ok (.code (encodeSample x))
  | .dec c => .ok (.sample (decodeCode c))
  | .hdrBuild kind => .ok (.header (template kind))
  | .hdrPatch n => if 0xFFFFFFDB < n.toNat then .fault (.patchRange n) else patchResponse k

theorem patchSizes_eq_effect (n : Count) (s : State) :
    patchSizes n s = s.effect (patchWrites s.sink n) (patchResponse s.sink) := by
  rcases patchSizes_cases n s with ⟨h40, he⟩ | ⟨h40, h4, he⟩ | ⟨⟨h40, h4⟩, he⟩ <;> rw [he]
  · simp only [patchWrites, patchResponse, h40]; rfl
  · simp only [patchWrites, patchResponse, h40, h4]; rfl
  · simp only [patchWrites, patchResponse, h40, h4]; rfl

/-- A command's writes and response are all it does, and both are functions of the sink and the command. -/
theorem exec_eq_effect (i : Instr) (s : State) :
    exec i s = .next (s.effect (commandWrites s.sink i) (commandResponse s.sink i)) := by
  cases i with
  | enc x => rfl
  | dec c => rfl
  | hdrBuild kind => rfl
  | hdrPatch n =>
    simp only [exec_hdrPatch, commandWrites, commandResponse]
    split
    · rfl
    · rw [patchSizes_eq_effect]

/-- Every write of HDR_PATCH is one the sink accepts, to a size field. -/
theorem patchWrites_spec {k : Sink} {n : Count} {p : FrameWrite} (h : p ∈ patchWrites k n) :
    k.accepts p.1 p.2.length = true ∧ ∀ a, p.covers a → inSizeFields a := by
  unfold patchWrites at h
  split at h
  · next h40 =>
    rcases List.mem_cons.mp h with rfl | h
    · exact ⟨by simpa using h40, fun a ha => .inr (by simpa [FrameWrite.covers] using ha)⟩
    · split at h
      · next h4 =>
        obtain rfl := List.mem_singleton.mp h
        exact ⟨by simpa using h4, fun a ha => .inl (by simpa [FrameWrite.covers] using ha)⟩
      · cases h
  · cases h

/-- Only HDR_PATCH in range writes anything. -/
theorem commandWrites_cases (k : Sink) (i : Instr) :
    commandWrites k i = [] ∨
      ∃ n : Count, i = .hdrPatch n ∧ n.toNat ≤ 0xFFFFFFDB ∧ commandWrites k i = patchWrites k n := by
  cases i with
  | enc x => exact .inl rfl
  | dec c => exact .inl rfl
  | hdrBuild kind => exact .inl rfl
  | hdrPatch n =>
    by_cases hn : 0xFFFFFFDB < n.toNat
    · exact .inl (if_pos hn)
    · exact .inr ⟨n, rfl, Nat.not_lt.mp hn, if_neg hn⟩

theorem commandWrites_spec {k : Sink} {i : Instr} {p : FrameWrite} (h : p ∈ commandWrites k i) :
    k.accepts p.1 p.2.length = true ∧ ∀ a, p.covers a → inSizeFields a := by
  rcases commandWrites_cases k i with he | ⟨n, _, _, he⟩ <;> rw [he] at h
  · cases h
  · exact patchWrites_spec h

/-- ENC, DEC and HDR_BUILD write nothing and answer Ok. -/
theorem pureCommand_writes_response {i : Instr} (h : ∀ n, i ≠ .hdrPatch n) (k : Sink) :
    commandWrites k i = [] ∧ ∃ r, commandResponse k i = .ok r := by
  cases i with
  | enc x => exact ⟨rfl, _, rfl⟩
  | dec c => exact ⟨rfl, _, rfl⟩
  | hdrBuild kind => exact ⟨rfl, _, rfl⟩
  | hdrPatch n => exact absurd rfl (h n)

/-! ### What the block does with a word -/

/-- The writes the block makes on a word; an illegal word writes nothing (60_exceptions.md R204). -/
def wordWrites (k : Sink) (w : CmdWord) : List FrameWrite :=
  match decode w with
  | .ok i => commandWrites k i
  | .error _ => []

/-- The response of the block to a word (60_exceptions.md R204). -/
def wordResponse (k : Sink) (w : CmdWord) : Response :=
  match decode w with
  | .ok i => commandResponse k i
  | .error _ => .fault (.illegalCommand w)

/-- The block's writes and response are all it does, and both are functions of the sink and the word. -/
theorem blockTurn_eq_effect (w : CmdWord) (s : State) :
    blockTurn w s = .next (s.takeCommand.effect (wordWrites s.sink w) (wordResponse s.sink w)) := by
  unfold wordWrites wordResponse
  rcases blockTurn_cases w s with ⟨i, hd, he⟩ | ⟨e, hd, he⟩ <;> rw [he, hd]
  · exact exec_eq_effect i s.takeCommand
  · rfl

/-- A word that decodes to HDR_PATCH is that command's encoding: none of its bits is reserved (30_encoding.md R81). -/
theorem eq_encode_of_decode_hdrPatch {w : CmdWord} {n : Count} (h : decode w = .ok (.hdrPatch n)) :
    w = encode (.hdrPatch n) := by
  simp only [decode, decodeEnc, decodeDec, decodeHdrBuild, decodeHdrPatch] at h
  split_ifs at h with _ _ _ _ _ _ hop <;> cases h
  rw [encode, ← hop, commandWord_of_fields]

/-- Only the word of an HDR_PATCH in range makes the block write. -/
theorem wordWrites_cases (k : Sink) (w : CmdWord) :
    wordWrites k w = [] ∨ ∃ n : Count, w = encode (.hdrPatch n) ∧ n.toNat ≤ 0xFFFFFFDB := by
  unfold wordWrites
  cases hd : decode w with
  | error e => exact .inl rfl
  | ok i =>
    rcases commandWrites_cases k i with he | ⟨n, rfl, hn, _⟩
    · exact .inl he
    · exact .inr ⟨n, eq_encode_of_decode_hdrPatch hd, hn⟩

theorem wordWrites_accepted {k : Sink} {w : CmdWord} {p : FrameWrite} (h : p ∈ wordWrites k w) :
    k.accepts p.1 p.2.length = true := by
  unfold wordWrites at h
  split at h
  · exact (commandWrites_spec h).1
  · cases h

/-! ### What the host's turn does to the store -/

/-- From `s` to `t` the store is as before, or bytes the sink accepts were stored. -/
abbrev State.StoresTo (s t : State) : Prop :=
  t.frame = s.frame ∨ ∃ off bytes, s.sink.accepts off bytes.length = true ∧ t.frame = s.frame.writeBytes off bytes

theorem hostPut_storesTo (off : Nat) (bytes : List Byte) (s : State) : s.StoresTo (hostPut off bytes s) := by
  rcases hostPut_cases off bytes s with ⟨ha, he⟩ | ⟨_, he⟩ <;> rw [he]
  · exact .inr ⟨off, bytes, ha, rfl⟩
  · exact .inl rfl

/-- A host action stores accepted bytes, leaves the store alone, or is RESET. -/
theorem hostAction_frame_cases {a : HostAction} {s t : State} (h : hostAction a s = .next t) :
    s.StoresTo t ∨ (a = .reset ∧ t.frame = []) := by
  cases a with
  | issue w => cases h; exact .inl (.inl rfl)
  | put off bytes => cases h; exact .inl (hostPut_storesTo off bytes s)
  | putResult off =>
    simp only [hostAction, hostPutResult] at h
    split at h
    · cases h; exact .inl (hostPut_storesTo ..)
    · cases h
  | read off n => cases h; exact .inl (.inl rfl)
  | reset => cases h; exact .inr ⟨rfl, rfl⟩
  | encodeStream src =>
    obtain ⟨r, hr⟩ := startStream_cases .encode src s
    cases h; rw [hr]; exact .inl (.inl rfl)
  | decodeStream src =>
    obtain ⟨r, hr⟩ := startStream_cases .decode src s
    cases h; rw [hr]; exact .inl (.inl rfl)

theorem runPending_frame_cases {s t : State} (h : runPending s = .next t) :
    s.StoresTo t ∨ ((∃ rest, s.host.pending = .reset :: rest) ∧ t.frame = []) := by
  rcases runPending_cases s with ⟨_, he⟩ | ⟨a, rest, hp, he⟩ <;> rw [he] at h
  · cases h; exact .inl (.inl rfl)
  · rcases hostAction_frame_cases h with hst | ⟨rfl, hf⟩
    · exact .inl hst
    · exact .inr ⟨⟨rest, hp⟩, hf⟩

/-- A line of a stream run stores accepted bytes or leaves the store alone; a complete run lets the host go on. -/
theorem streamTurn_frame_cases {r : StreamRun} {s t : State} (h : streamTurn r s = .next t) :
    s.StoresTo t ∨ (r.phase = .done ∧ (∃ rest, s.host.pending = .reset :: rest) ∧ t.frame = []) := by
  unfold streamTurn at h
  cases hp : r.phase <;> rw [hp] at h
  case skip =>
    obtain ⟨r', he⟩ := turnSkip_cases r s
    cases h; rw [he]; exact .inl (.inl rfl)
  case header => cases h; exact .inl (.inl rfl)
  case putHeader =>
    obtain ⟨bytes, r', _, rfl⟩ := turnPutHeader_next h
    exact .inl (hostPut_storesTo ..)
  case loop =>
    rcases turnLoop_cases r s with ⟨r', i, he⟩ | ⟨r', he⟩ <;> cases h <;> rw [he] <;> exact .inl (.inl rfl)
  case putUnit =>
    obtain ⟨bytes, r', _, rfl⟩ := turnPutUnit_next h
    exact .inl (hostPut_storesTo ..)
  case patch => cases h; exact .inl (.inl rfl)
  case finish =>
    rcases turnFinish_cases r s with ⟨resp, _, he⟩ | ⟨_, he⟩ <;> simp only [he] at h <;> cases h
    exact .inl (.inl rfl)
  case done => exact (runPending_frame_cases h).imp_right fun hr => ⟨rfl, hr⟩
  case failed e => cases h

/-- A host turn stores accepted bytes, leaves the store alone, or is a RESET the host takes between actions. -/
theorem hostTurn_frame_cases {s t : State} (hw : s.cmdPort = none) (h : hostTurn s = .next t) :
    s.StoresTo t ∨ (s.hostFree ∧ (∃ rest, s.host.pending = .reset :: rest) ∧ t.frame = []) := by
  cases hr : s.host.run with
  | none =>
    rw [hostTurn_of_no_run hr] at h
    exact (runPending_frame_cases h).imp_right fun hreset => ⟨⟨hw, .inl hr⟩, hreset⟩
  | some r =>
    rw [hostTurn_of_run hr] at h
    exact (streamTurn_frame_cases h).imp_right fun ⟨hdone, hreset⟩ => ⟨⟨hw, .inr ⟨r, hr, hdone⟩⟩, hreset⟩

/-! ### The store invariant is kept -/

theorem State.FrameInv.storesTo {s t : State} (hi : s.FrameInv) (hs : t.sink = s.sink) (h : s.StoresTo t) :
    t.FrameInv := by
  rcases h with hf | ⟨off, bytes, ha, hf⟩
  · exact hi.congr hf hs
  · exact (State.store_frameInv (State.store_accepted ha) hi).congr hf hs

theorem blockTurn_frameInv {w : CmdWord} {s t : State} (hi : s.FrameInv) (h : blockTurn w s = .next t) :
    t.FrameInv := by
  rw [blockTurn_eq_effect] at h
  cases h
  exact (hi.writeAll fun p hp => wordWrites_accepted hp).congr rfl rfl

theorem hostTurn_frameInv {s t : State} (hw : s.cmdPort = none) (hi : s.FrameInv) (h : hostTurn s = .next t) :
    t.FrameInv := by
  obtain ⟨hs, _⟩ := hostTurn_sameParams h
  rcases hostTurn_frame_cases hw h with hst | ⟨_, _, hf⟩
  · exact hi.storesTo hs hst
  · obtain ⟨_, _, hcap⟩ := hi
    exact State.frameInv_of_empty hf (hs ▸ hcap)

/-- Settles O41: the block writes only where the sink accepts it, and so does the host, which may also empty the store. -/
theorem stepKeepsTheStoreInvariant : Obligations.StepKeepsTheStoreInvariant := by
  intro s t hi h
  cases hw : s.cmdPort with
  | some w =>
    rw [step_of_cmdPort hw] at h
    exact blockTurn_frameInv hi h
  | none =>
    rw [step_of_idle hw] at h
    exact hostTurn_frameInv hw hi h

/-! ### The obligations on the block's turn and on reset -/

/-- Settles O8: the block's turn is an effect on the state with the command port emptied, and every effect has a
response. -/
theorem everyWordIsAnswered : Obligations.EveryWordIsAnswered := by
  intro s w hw
  exact ⟨_, _, (step_of_cmdPort hw).trans (blockTurn_eq_effect w s), rfl, rfl⟩

/-- Settles O33: a command is an effect, its writes cover size fields only, and ENC, DEC and HDR_BUILD make none. -/
theorem commandsChangeOnlyWhatTheirRulesName : Obligations.CommandsChangeOnlyWhatTheirRulesName := by
  intro i s t h
  rw [exec_eq_effect] at h
  cases h
  refine ⟨fun a => ?_, fun hpure => ?_, rfl, rfl, rfl, ?_⟩
  · rcases commandWrites_cases s.sink i with he | ⟨n, hn, _, _⟩
    · exact .inr (by rw [he]; rfl)
    · by_cases ha : inSizeFields a
      · exact .inl ⟨⟨n, hn⟩, ha⟩
      · exact .inr (Memory.read_writeAll_outside (fun p hp hc => ha ((commandWrites_spec hp).2 a hc)) s.frame)
  · obtain ⟨hw, r, hr⟩ := pureCommand_writes_response hpure s.sink
    rw [hw, hr]
    exact ⟨rfl, rfl⟩
  · cases commandResponse s.sink i with
    | ok r => exact .inl rfl
    | fault c => exact .inr ⟨c, rfl, rfl⟩

/-- Settles O34: writes and response are functions of the sink and the word, so both states get the same, and what a write
leaves at an offset depends on no store. -/
theorem blockSeesOnlyStoreSinkAndWord : Obligations.BlockSeesOnlyStoreSinkAndWord := by
  intro s s' w hw hw' hsink
  refine ⟨_, _, (step_of_cmdPort hw).trans (blockTurn_eq_effect w s),
    (step_of_cmdPort hw').trans (blockTurn_eq_effect w s'), ?_⟩
  rw [← hsink]
  refine ⟨rfl, fun a => ?_, fun hf => congrArg (Memory.writeAll · _) hf⟩
  rcases Memory.read_writeAll_uniform (wordWrites s.sink w) a with hkeep | ⟨b, hb⟩
  · exact .inl ⟨hkeep s.frame, hkeep s'.frame⟩
  · refine .inr ⟨?_, (hb s.frame).trans (hb s'.frame).symm⟩
    exact fun hnone => Option.some_ne_none b ((hb s.frame).symm.trans hnone)

/-- Settles O35: with a word on the port, a store that changed was written, and only HDR_PATCH in range writes. -/
theorem onlyPatchAndHostWriteTheStore : Obligations.OnlyPatchAndHostWriteTheStore := by
  intro s t h hne
  cases hw : s.cmdPort with
  | none => exact .inl rfl
  | some w =>
    rw [step_of_cmdPort hw, blockTurn_eq_effect] at h
    cases h
    rcases wordWrites_cases s.sink w with he | ⟨n, rfl, hn⟩
    · exact absurd (by rw [he]; rfl) hne
    · exact .inr ⟨n, rfl, hn⟩

/-- Settles O43: after reset the store is empty, both ports are idle, and FRAME_CAP is a number plus 44. -/
theorem resetMeetsTheInvariants : Obligations.ResetMeetsTheInvariants := by
  have hcap : Config.hdrLen ≤ State.reset.sink.cap := Nat.le_add_left 44 Config.frameCapBeyondHeader
  exact ⟨State.frameInv_of_empty rfl hcap, fun _ => rfl, fun _ => rfl, rfl, rfl⟩

end Sys2Proof.Machine

/-! ## The frame store: numbers in memory, FLEN, and what a store keeps

Rules for the accessors come first: bytes and numbers, reads, `FLEN`, and MemWrite. The obligations on the store (20_memory.md)
follow from them and from what a step does to the store (`blockTurn_eq_effect`, `hostTurn_frame_cases`). -/

namespace Sys2Proof.Machine

/-! ### Bytes and numbers -/

/-- The weight of byte `k`, in bits and in bytes. -/
theorem two_pow_eight_mul (k : Nat) : 2 ^ (8 * k) = 256 ^ k := Nat.pow_mul 2 8 k

theorem leValue_lt (bs : List Byte) : leValue bs < 256 ^ bs.length := by
  induction bs with
  | nil => simp [leValue]
  | cons b bs ih =>
    have hb := b.isLt
    simp only [leValue, List.length_cons, Nat.pow_succ]
    omega

/-- A byte string is the bytes of its number: `leBytes` inverts `leValue` (20_memory.md R43, R44). -/
theorem leBytes_leValue (bs : List Byte) : leBytes bs.length (leValue bs) = bs := by
  induction bs with
  | nil => rfl
  | cons b bs ih =>
    have hlow : BitVec.ofNat 8 (leValue (b :: bs)) = b := by
      apply BitVec.eq_of_toNat_eq
      simp only [leValue, BitVec.toNat_ofNat]
      omega
    have hrest : leValue (b :: bs) / 256 = leValue bs := by
      have hb := b.isLt
      simp only [leValue]
      omega
    rw [List.length_cons, leBytes, hlow, hrest, ih]

/-- Byte `k` of a little-endian number is the number's bits `8k` to `8k + 7`. -/
theorem getElem_eq_ofNat_leValue (bs : List Byte) (k : Nat) (h : k < bs.length) :
    bs[k] = BitVec.ofNat 8 (leValue bs / 256 ^ k) := by
  rw [← leBytes_getElem bs.length (leValue bs) k (by simpa using h)]
  simp only [leBytes_leValue]

/-! ### Reads of several bytes -/

/-- A read has no value exactly when a byte of its range is unwritten (20_memory.md R43). -/
theorem Memory.readBytes_eq_none_iff (m : Memory) (n : Nat) :
    ∀ a, m.readBytes a n = none ↔ ∃ k, k < n ∧ m.read (a + k) = none := by
  induction n with
  | zero => simp [Memory.readBytes]
  | succ n ih =>
    intro a
    have hsplit : m.readBytes a (n + 1) = none ↔ m.read a = none ∨ m.readBytes (a + 1) n = none := by
      rw [Memory.readBytes]
      cases m.read a <;> cases m.readBytes (a + 1) n <;> simp
    rw [hsplit, ih, Nat.exists_lt_succ_left]
    simp only [Nat.add_zero, Nat.add_assoc, Nat.add_comm 1]

/-- A read inside a stored range gives that part of the stored bytes. -/
theorem Memory.readBytes_writeBytes_slice (m : Memory) (a : Nat) {bs : List Byte} {i n : Nat} (h : i + n ≤ bs.length) :
    (m.writeBytes a bs).readBytes (a + i) n = some ((bs.drop i).take n) := by
  rw [Memory.readBytes_eq_some_iff]
  refine ⟨by simp; omega, fun k hk => ?_⟩
  have hlt : i + k < bs.length := by
    simp only [List.length_take, List.length_drop] at hk
    omega
  simpa [Nat.add_assoc] using Memory.read_writeBytes_inside bs m a (i + k) hlt

/-! ### No write unwrites a byte -/

/-- Every byte written in `m` is written in `m'`. -/
abbrev Memory.KeepsWritten (m m' : Memory) : Prop := ∀ a, m.read a ≠ none → m'.read a ≠ none

theorem Memory.keepsWritten_write (m : Memory) (a : Nat) (b : Byte) : m.KeepsWritten (m.write a b) := by
  intro a' h
  rw [Memory.read_write]
  split
  · exact Option.some_ne_none b
  · exact h

theorem Memory.keepsWritten_writeBytes (bs : List Byte) :
    ∀ (m : Memory) (a : Nat), m.KeepsWritten (m.writeBytes a bs) := by
  induction bs with
  | nil => intro m a a' h; exact h
  | cons b bs ih => intro m a a' h; exact ih _ _ a' (Memory.keepsWritten_write m a b a' h)

theorem Memory.keepsWritten_writeAll (ws : List FrameWrite) : ∀ m : Memory, m.KeepsWritten (m.writeAll ws) := by
  induction ws with
  | nil => intro m a h; exact h
  | cons p ws ih => intro m a h; exact ih _ a (Memory.keepsWritten_writeBytes p.2 m p.1 a h)

theorem State.StoresTo.keepsWritten {s t : State} (h : s.StoresTo t) : s.frame.KeepsWritten t.frame := by
  rcases h with hf | ⟨off, bytes, _, hf⟩ <;> rw [hf]
  · exact fun _ ha => ha
  · exact Memory.keepsWritten_writeBytes bytes s.frame off

/-! ### FLEN -/

theorem Memory.lt_flen_of_read {m : Memory} {a : Nat} (h : m.read a ≠ none) : a < m.flen := by
  induction m with
  | nil => exact absurd rfl h
  | cons c rest ih =>
    obtain ⟨x, v⟩ := c
    simp only [Memory.read] at h
    simp only [Memory.flen]
    split at h
    · omega
    · have := ih h
      omega

/-- A nonzero FLEN is one past a written offset. -/
theorem Memory.read_flen_pred (m : Memory) : m.flen = 0 ∨ m.read (m.flen - 1) ≠ none := by
  induction m with
  | nil => exact .inl rfl
  | cons c rest ih =>
    obtain ⟨x, v⟩ := c
    right
    rw [Memory.read, Memory.flen]
    rcases Nat.lt_or_ge x (Memory.flen rest) with hlt | hge
    · rw [Nat.max_eq_right hlt]
      split_ifs
      · exact Option.some_ne_none v
      · exact ih.resolve_left (Nat.ne_zero_of_lt hlt)
    · rw [Nat.max_eq_left (by omega), Nat.add_sub_cancel, if_pos rfl]
      exact Option.some_ne_none v

theorem Memory.flen_write (m : Memory) (a : Nat) (b : Byte) : (m.write a b).flen = max m.flen (a + 1) := by
  induction m with
  | nil => simp [Memory.write, Memory.flen]
  | cons c rest ih =>
    obtain ⟨x, v⟩ := c
    rcases Nat.lt_trichotomy a x with h | rfl | h
    · simp only [Memory.write, if_pos h, Memory.flen]; omega
    · simp only [Memory.write, Nat.lt_irrefl, if_true, if_false, Memory.flen]; omega
    · simp only [Memory.write, if_neg (Nat.lt_asymm h), if_neg (Nat.ne_of_gt h), Memory.flen, ih]; omega

/-- A write raises FLEN to cover what it wrote; a write of no byte leaves it (20_memory.md R58). -/
theorem Memory.flen_writeBytes (bs : List Byte) : ∀ (m : Memory) (a : Nat),
    (m.writeBytes a bs).flen = max m.flen (if bs = [] then 0 else a + bs.length) := by
  induction bs with
  | nil => intro m a; simp [Memory.writeBytes]
  | cons b bs ih =>
    intro m a
    rw [Memory.writeBytes, ih, Memory.flen_write, if_neg (List.cons_ne_nil b bs), List.length_cons]
    split
    · next hnil => subst hnil; simp
    · omega

/-! ### MemWrite -/

theorem State.memWrite_accepted {s : State} {addr n : Nat} (v : Nat) (h : s.sink.accepts addr n = true) :
    s.memWrite addr n v = some { s with frame := s.frame.writeBytes addr (leBytes n v) } :=
  State.store_accepted (by rwa [leBytes_length])

/-- Two writes the sink accepts, one after the other: the first leaves the sink as it is. -/
theorem State.memWrite_bind_memWrite {s : State} {addr addr' n n' : Nat} (v v' : Nat)
    (h : s.sink.accepts addr n = true) (h' : s.sink.accepts addr' n' = true) :
    (s.memWrite addr n v).bind (fun u => u.memWrite addr' n' v') =
      some { s with frame := (s.frame.writeBytes addr (leBytes n v)).writeBytes addr' (leBytes n' v') } := by
  rw [State.memWrite_accepted v h, Option.bind_some]
  exact State.memWrite_accepted v' h'

theorem State.memWrite_isSome_iff (s : State) (addr n v : Nat) :
    (∃ t, s.memWrite addr n v = some t) ↔ s.sink.accepts addr n = true := by
  constructor
  · rintro ⟨t, ht⟩
    simpa using (State.store_eq_some ht).1
  · exact fun h => ⟨_, State.memWrite_accepted v h⟩

/-! ### Reads after a store -/

/-- A byte outside a stored range reads as before. -/
theorem State.read_of_store_outside {s t : State} {addr a : Nat} {bytes : List Byte} (h : s.store addr bytes = some t)
    (ha : a < addr ∨ addr + bytes.length ≤ a) : t.frame.read a = s.frame.read a := by
  obtain ⟨_, rfl⟩ := State.store_eq_some h
  exact Memory.read_writeBytes_outside bytes s.frame addr a ha

/-- A read inside a stored range gives the number that stands there. -/
theorem State.memRead_of_store {s t : State} {addr i n : Nat} {bytes : List Byte} (h : s.store addr bytes = some t)
    (hin : i + n ≤ bytes.length) : t.memRead (addr + i) n = some (leValue ((bytes.drop i).take n)) := by
  obtain ⟨_, rfl⟩ := State.store_eq_some h
  have hread := Memory.readBytes_writeBytes_slice s.frame addr hin
  rw [State.memRead, hread, Option.map_some]

/-! ### The templates -/

theorem template_length (k : Kind) : (template k).length = 44 := by
  cases k <;> rfl

/-- Both size fields of a template are 0 (42_wave_header.md R142, R143). -/
theorem template_sizes_zero (k : Kind) :
    leValue (((template k).drop 4).take 4) = 0 ∧ leValue (((template k).drop 40).take 4) = 0 := by
  cases k <;> exact ⟨rfl, rfl⟩

/-! ### The obligations on the frame store -/

/-- Settles O32: the sink accepts both writes in either order, and their ranges are disjoint. -/
theorem sizeWritesCommute : Obligations.SizeWritesCommute := by
  rintro s v w ⟨h40, h4⟩
  refine ⟨_, State.memWrite_bind_memWrite v w h40 h4, ?_⟩
  have hcomm := Memory.writeBytes_comm (leBytes 4 v) s.frame 4 40 (leBytes 4 w) (by simp)
  rw [State.memWrite_bind_memWrite w v h4 h40, hcomm]

/-- Settles O36: inside the range stand the bytes of the value, outside it the store is as before. -/
theorem memWriteStoresLittleEndian : Obligations.MemWriteStoresLittleEndian := by
  intro s addr n v h
  refine ⟨_, State.memWrite_accepted v h, rfl, fun k hk => ?_, fun a ha => ?_⟩
  · have hk' : k < (leBytes n v).length := by simpa using hk
    rw [two_pow_eight_mul, ← leBytes_getElem n v k hk']
    exact Memory.read_writeBytes_inside _ _ _ _ hk'
  · exact Memory.read_writeBytes_outside _ _ _ _ (by simpa using ha)

/-- Settles O37: a read has a value when all its bytes are written, and a number determines its bytes. -/
theorem memReadIsLittleEndianOrNothing : Obligations.MemReadIsLittleEndianOrNothing := by
  intro s addr n
  refine ⟨?_, fun v hv => ?_⟩
  · rw [State.memRead, Option.map_eq_none_iff, Memory.readBytes_eq_none_iff]
  · obtain ⟨bs, hbs, rfl⟩ := Option.map_eq_some_iff.mp hv
    obtain ⟨rfl, hread⟩ := (Memory.readBytes_eq_some_iff _ _ _ _).mp hbs
    refine ⟨by rw [two_pow_eight_mul]; exact leValue_lt bs, fun k hk => ?_⟩
    rw [two_pow_eight_mul, ← getElem_eq_ofNat_leValue bs k hk]
    exact hread k hk

/-- Settles O39: FLEN is the maximum over the listed offsets, and a store only adds offsets to the list. -/
theorem storesNeverTruncate : Obligations.StoresNeverTruncate := by
  refine ⟨fun m a h => Memory.lt_flen_of_read h, Memory.read_flen_pred, fun s t addr bytes h => ?_⟩
  obtain ⟨_, rfl⟩ := State.store_eq_some h
  exact ⟨Memory.keepsWritten_writeBytes bytes s.frame addr, Memory.flen_writeBytes bytes s.frame addr⟩

/-- Settles O40: a template covers offsets 0 to 43, and its size fields are 0. -/
theorem headerAfterPatchWipesTheSizes : Obligations.HeaderAfterPatchWipesTheSizes := by
  intro s t k h
  obtain ⟨hchunk, hdata⟩ := template_sizes_zero k
  have hlen := template_length k
  refine ⟨?_, ?_, fun a ha => ?_⟩
  · have hread := State.memRead_of_store (i := 4) (n := 4) h (by omega)
    rwa [hchunk] at hread
  · have hread := State.memRead_of_store (i := 40) (n := 4) h (by omega)
    rwa [hdata] at hread
  · exact State.read_of_store_outside h (by omega)

/-- Settles O45: the block only writes, and so does the host, unless it takes a RESET. -/
theorem writtenBytesStayWrittenUntilReset : Obligations.WrittenBytesStayWrittenUntilReset := by
  intro s t h
  cases hw : s.cmdPort with
  | some w =>
    rw [step_of_cmdPort hw, blockTurn_eq_effect] at h
    cases h
    exact .inl (Memory.keepsWritten_writeAll (wordWrites s.sink w) s.frame)
  | none =>
    rw [step_of_idle hw] at h
    exact (hostTurn_frame_cases hw h).imp_left State.StoresTo.keepsWritten

/-- Settles O6: a word on the port is the block's turn, and a word that decodes is no illegal one. -/
theorem stepExecutesTheDecodedCommand : Obligations.StepExecutesTheDecodedCommand := by
  intro s w i hw hd
  rw [step_of_cmdPort hw]
  rcases blockTurn_cases w s with ⟨j, hj, he⟩ | ⟨e, hillegal, _⟩
  · obtain rfl : j = i := Except.ok.inj (hj.symm.trans hd)
    exact he
  · cases hillegal.symm.trans hd

/-- Settles O38: MemWrite asks the sink about `n` bytes at `addr`, and about nothing else. -/
theorem writeAcceptance : Obligations.WriteAcceptance := by
  intro s addr n v
  rw [State.memWrite_isSome_iff, Sink.accepts_iff]

end Sys2Proof.Machine

/-! ## Command words: the operand field of each command, and the decoder

The four readings of "no reserved bit is set" come first: as a number below `2 ^ k`, as the zero extension of a `k`-bit
operand, as a zero field, and as a zero masked word. Each command's words are then its opcode and such an operand
(`exists_encode_enc_iff` and its companions); the opcode table, the decoder and the ranges of 30_encoding.md R84 follow. -/

namespace Sys2Proof

/-! ### An operand whose reserved bits are zero -/

/-- The zero extensions of `k`-bit operands are the vectors below `2 ^ k`. -/
theorem exists_setWidth_eq_iff {k w : Nat} (x : BitVec w) : (∃ y : BitVec k, y.setWidth w = x) ↔ x.toNat < 2 ^ k := by
  constructor
  · rintro ⟨y, rfl⟩
    rw [BitVec.toNat_setWidth]
    exact Nat.lt_of_le_of_lt (Nat.mod_le _ _) y.isLt
  · intro h
    refine ⟨x.setWidth k, BitVec.eq_of_toNat_eq ?_⟩
    rw [BitVec.toNat_setWidth, BitVec.toNat_setWidth, Nat.mod_eq_of_lt h, Nat.mod_eq_of_lt x.isLt]

/-- The field of all bits from `k` up is zero. -/
theorem extractLsb'_eq_zero_iff {k m w : Nat} (hw : k + m = w) (x : BitVec w) :
    x.extractLsb' k m = 0#m ↔ x.toNat < 2 ^ k := by
  have hlt : x.toNat / 2 ^ k < 2 ^ m := by
    rw [Nat.div_lt_iff_lt_mul (Nat.two_pow_pos k), ← Nat.pow_add, Nat.add_comm, hw]
    exact x.isLt
  rw [← BitVec.toNat_inj, BitVec.extractLsb'_toNat, Nat.shiftRight_eq_div_pow, Nat.mod_eq_of_lt hlt,
    BitVec.toNat_ofNat, Nat.zero_mod, Nat.div_eq_zero_iff_lt (Nat.two_pow_pos k)]

/-- The vector has no bit in common with the mask of all bits from `k` up. -/
theorem and_mask_eq_zero_iff {k w : Nat} {mask : BitVec w} (hmask : ∀ i < w, mask.getLsbD i = decide (k ≤ i))
    (x : BitVec w) : x &&& mask = 0#w ↔ x.toNat < 2 ^ k := by
  constructor
  · intro h
    refine Nat.lt_pow_two_of_testBit _ fun i hi => ?_
    by_cases hiw : i < w
    · have hbit : (x &&& mask).getLsbD i = false := by rw [h, BitVec.getLsbD_zero]
      simpa [hmask i hiw, hi, BitVec.testBit_toNat] using hbit
    · exact BitVec.getLsbD_of_ge x i (Nat.not_lt.mp hiw)
  · intro h
    refine BitVec.eq_of_getLsbD_eq fun i hiw => ?_
    rw [BitVec.getLsbD_and, hmask i hiw, BitVec.getLsbD_zero]
    by_cases hi : k ≤ i
    · have hbit : x.getLsbD i = false := Nat.testBit_lt_two_pow (h.trans_le (Nat.pow_le_pow_right (by decide) hi))
      simp [hbit]
    · simp [hi]

/-- Zero extension by `m` bits, written as a concatenation. -/
theorem setWidth_eq_zero_append (m : Nat) {k : Nat} (x : BitVec k) : x.setWidth (m + k) = 0#m ++ x := by
  refine BitVec.eq_of_getLsbD_eq fun i hi => ?_
  rw [BitVec.getLsbD_append, BitVec.getLsbD_setWidth]
  split
  · simp [hi]
  · next h => simp [BitVec.getLsbD_of_ge x i (Nat.not_lt.mp h)]

/-! ### The fields of a word -/

theorem commandWord_eq_iff (op : BitVec 8) (x : BitVec 32) (w : CmdWord) :
    commandWord op x = w ↔ opcodeOf w = op ∧ operandOf w = x := by
  constructor
  · rintro rfl
    exact ⟨opcodeOf_commandWord op x, operandOf_commandWord op x⟩
  · rintro ⟨rfl, rfl⟩
    exact commandWord_of_fields w

theorem toNat_opcodeOf (w : CmdWord) : (opcodeOf w).toNat = w.toNat / 2 ^ 32 := by
  rw [opcodeOf, BitVec.extractLsb'_toNat, Nat.shiftRight_eq_div_pow]
  omega

theorem toNat_operandOf (w : CmdWord) : (operandOf w).toNat = w.toNat % 2 ^ 32 := by
  rw [operandOf, BitVec.extractLsb'_toNat, Nat.shiftRight_zero]

/-- Masking a word masks its two fields. -/
theorem and_commandWord_eq_iff (mo po : BitVec 8) (m p : BitVec 32) (w : CmdWord) :
    w &&& commandWord mo m = commandWord po p ↔ opcodeOf w &&& mo = po ∧ operandOf w &&& m = p := by
  rw [← OpRow.selects_commandWord m p mo po (opcodeOf w) "" (operandOf w), commandWord_of_fields]
  exact beq_iff_eq.symm

/-! ### The words of each command -/

/-- The words of an opcode and a `k`-bit operand. -/
theorem exists_commandWord_setWidth_iff {k : Nat} (op : BitVec 8) (w : CmdWord) :
    (∃ y : BitVec k, commandWord op (y.setWidth 32) = w) ↔ opcodeOf w = op ∧ (operandOf w).toNat < 2 ^ k := by
  simp only [commandWord_eq_iff, exists_and_left, ← exists_setWidth_eq_iff, eq_comm (a := operandOf w)]

theorem exists_encode_enc_iff (w : CmdWord) :
    (∃ x, encode (.enc x) = w) ↔ opcodeOf w = 0x01#8 ∧ (operandOf w).toNat < 2 ^ 16 :=
  exists_commandWord_setWidth_iff 0x01#8 w

theorem exists_encode_dec_iff (w : CmdWord) :
    (∃ c, encode (.dec c) = w) ↔ opcodeOf w = 0x02#8 ∧ (operandOf w).toNat < 2 ^ 8 :=
  exists_commandWord_setWidth_iff 0x02#8 w

/-- Every bit stands for a kind. -/
theorem exists_kind_bit_iff {p : BitVec 1 → Prop} : (∃ k : Kind, p k.bit) ↔ ∃ b, p b := by
  refine ⟨fun ⟨k, hk⟩ => ⟨k.bit, hk⟩, fun ⟨b, hb⟩ => ?_⟩
  rcases BitVec.eq_zero_or_eq_one b with rfl | rfl
  · exact ⟨.pcm, hb⟩
  · exact ⟨.mulaw, hb⟩

theorem exists_encode_hdrBuild_iff (w : CmdWord) :
    (∃ k, encode (.hdrBuild k) = w) ↔ opcodeOf w = 0x03#8 ∧ (operandOf w).toNat < 2 ^ 1 :=
  (exists_kind_bit_iff (p := fun b => commandWord 0x03#8 (b.setWidth 32) = w)).trans
    (exists_commandWord_setWidth_iff 0x03#8 w)

theorem exists_encode_hdrPatch_iff (w : CmdWord) : (∃ n, encode (.hdrPatch n) = w) ↔ opcodeOf w = 0x04#8 := by
  simp only [encode, commandWord_eq_iff, exists_and_left, exists_eq', and_true]

/-! ### Decoding an encoded command -/

/-- A `k`-bit operand leaves the bits from `k` up zero. -/
theorem extractLsb'_setWidth_eq_zero {k m w : Nat} (hw : k + m = w) (y : BitVec k) :
    (y.setWidth w).extractLsb' k m = 0#m :=
  (extractLsb'_eq_zero_iff hw _).mpr ((exists_setWidth_eq_iff _).mp ⟨y, rfl⟩)

/-- The low `k` bits of a `k`-bit operand are the operand. -/
theorem extractLsb'_zero_setWidth {k w : Nat} (hw : k ≤ w) (y : BitVec k) : (y.setWidth w).extractLsb' 0 k = y := by
  rw [BitVec.extractLsb'_setWidth_of_le (by omega), BitVec.extractLsb'_eq_self]

theorem decodeEnc_setWidth (x : Sample) : decodeEnc (x.setWidth 32) = .ok (.enc x) := by
  rw [decodeEnc, if_pos (extractLsb'_setWidth_eq_zero rfl x), extractLsb'_zero_setWidth (by decide)]

theorem decodeDec_setWidth (c : Code) : decodeDec (c.setWidth 32) = .ok (.dec c) := by
  rw [decodeDec, if_pos (extractLsb'_setWidth_eq_zero rfl c), extractLsb'_zero_setWidth (by decide)]

theorem kindOfBit_bit (k : Kind) : kindOfBit ((k.bit.setWidth 32).getLsbD 0) = k := by
  cases k <;> rfl

theorem decodeHdrBuild_setWidth (k : Kind) : decodeHdrBuild (k.bit.setWidth 32) = .ok (.hdrBuild k) := by
  rw [decodeHdrBuild, if_pos (extractLsb'_setWidth_eq_zero rfl k.bit), kindOfBit_bit]

/-- Settles O2: the opcode field picks the command's own decoder, which finds the reserved bits zero and reads the operand
back. -/
theorem decodeOfEncode : Obligations.DecodeOfEncode := by
  intro i
  cases i with
  | enc x => simpa [decode, encode] using decodeEnc_setWidth x
  | dec c => simpa [decode, encode] using decodeDec_setWidth c
  | hdrBuild k => simpa [decode, encode] using decodeHdrBuild_setWidth k
  | hdrPatch n => simp [decode, encode, decodeHdrPatch]

/-! ### Encoding a decoded command -/

/-- A word that decodes to a command is the word of some command: its opcode is known and its reserved bits are zero. -/
theorem exists_encode_of_decode {w : CmdWord} {i : Instr} (h : decode w = .ok i) : ∃ j, encode j = w := by
  unfold decode at h
  split_ifs at h with h1 h2 h3 h4
  · unfold decodeEnc at h
    split_ifs at h with hr
    obtain ⟨x, hx⟩ := (exists_encode_enc_iff w).mpr ⟨h1, (extractLsb'_eq_zero_iff rfl _).mp hr⟩
    exact ⟨_, hx⟩
  · unfold decodeDec at h
    split_ifs at h with hr
    obtain ⟨c, hc⟩ := (exists_encode_dec_iff w).mpr ⟨h2, (extractLsb'_eq_zero_iff rfl _).mp hr⟩
    exact ⟨_, hc⟩
  · unfold decodeHdrBuild at h
    split_ifs at h with hr
    obtain ⟨k, hk⟩ := (exists_encode_hdrBuild_iff w).mpr ⟨h3, (extractLsb'_eq_zero_iff rfl _).mp hr⟩
    exact ⟨_, hk⟩
  · obtain ⟨n, hn⟩ := (exists_encode_hdrPatch_iff w).mpr h4
    exact ⟨_, hn⟩

/-- Settles O3: the word encodes some command, and by O2 that is the one it decodes to. -/
theorem encodeOfDecode : Obligations.EncodeOfDecode := by
  intro w i h
  obtain ⟨j, rfl⟩ := exists_encode_of_decode h
  obtain rfl : j = i := Except.ok.inj ((decodeOfEncode j).symm.trans h)
  rfl

/-- Decoder and encoder are inverse. -/
theorem decode_eq_ok_iff {w : CmdWord} {i : Instr} : decode w = .ok i ↔ encode i = w :=
  ⟨encodeOfDecode w i, fun h => h ▸ decodeOfEncode i⟩

/-! ### The rows of the opcode table -/

/-- A row whose operand mask is all bits from `k` up selects the words of its opcode and a `k`-bit operand. -/
theorem and_row_eq_iff {k : Nat} {mask : BitVec 32} (hmask : ∀ i < 32, mask.getLsbD i = decide (k ≤ i)) (op : BitVec 8)
    (w : CmdWord) :
    w &&& commandWord 0xFF#8 mask = commandWord op 0#32 ↔ opcodeOf w = op ∧ (operandOf w).toNat < 2 ^ k := by
  have hop : opcodeOf w &&& 0xFF#8 = opcodeOf w := BitVec.and_allOnes
  rw [and_commandWord_eq_iff, hop, and_mask_eq_zero_iff hmask]

theorem encRow_iff (w : CmdWord) : w &&& 0xFFFFFF0000#40 = 0x0100000000#40 ↔ ∃ x, encode (.enc x) = w :=
  (and_row_eq_iff (k := 16) (mask := 0xFFFF0000#32) (by decide) 0x01#8 w).trans (exists_encode_enc_iff w).symm

theorem decRow_iff (w : CmdWord) : w &&& 0xFFFFFFFF00#40 = 0x0200000000#40 ↔ ∃ c, encode (.dec c) = w :=
  (and_row_eq_iff (k := 8) (mask := 0xFFFFFF00#32) (by decide) 0x02#8 w).trans (exists_encode_dec_iff w).symm

theorem hdrBuildRow_iff (w : CmdWord) : w &&& 0xFFFFFFFFFE#40 = 0x0300000000#40 ↔ ∃ k, encode (.hdrBuild k) = w :=
  (and_row_eq_iff (k := 1) (mask := 0xFFFFFFFE#32) (by decide) 0x03#8 w).trans (exists_encode_hdrBuild_iff w).symm

theorem hdrPatchRow_iff (w : CmdWord) : w &&& 0xFF00000000#40 = 0x0400000000#40 ↔ ∃ n, encode (.hdrPatch n) = w := by
  rw [exists_encode_hdrPatch_iff]
  exact (and_row_eq_iff (k := 32) (mask := 0#32) (by decide) 0x04#8 w).trans (and_iff_left (operandOf w).isLt)

/-- The low bits of a word are its operand's. -/
theorem extractLsb'_commandWord {n : Nat} (hn : n ≤ 32) (op : BitVec 8) (x : BitVec 32) :
    (commandWord op x).extractLsb' 0 n = x.extractLsb' 0 n :=
  BitVec.extractLsb'_append_eq_of_add_le (by omega)

/-- Bit 0 of the word of HDR_BUILD tells the kind (30_encoding.md R81). -/
theorem getLsbD_encode_hdrBuild (k : Kind) : (encode (.hdrBuild k)).getLsbD 0 = decide (k = .mulaw) := by
  cases k <;> rfl

/-- Settles O4: each row selects the words of its command, and the operand is the low field of the command's word. -/
theorem tableRowsSelectTheirCommands : Obligations.TableRowsSelectTheirCommands := by
  intro w
  simp only [decode_eq_ok_iff]
  refine ⟨encRow_iff w, decRow_iff w, hdrBuildRow_iff w, hdrPatchRow_iff w, ?_, ?_, ?_, ?_⟩
  · rintro x rfl
    rw [encode, extractLsb'_commandWord (by decide), extractLsb'_zero_setWidth (by decide)]
  · rintro c rfl
    rw [encode, extractLsb'_commandWord (by decide), extractLsb'_zero_setWidth (by decide)]
  · rintro k rfl
    rw [getLsbD_encode_hdrBuild]
    cases k <;> decide
  · rintro n rfl
    rw [encode, extractLsb'_commandWord (by decide), BitVec.extractLsb'_eq_self]

/-! ### Legal and illegal words -/

theorem exists_instr_iff {p : Instr → Prop} :
    (∃ i, p i) ↔ (∃ x, p (.enc x)) ∨ (∃ c, p (.dec c)) ∨ (∃ k, p (.hdrBuild k)) ∨ ∃ n, p (.hdrPatch n) := by
  constructor
  · rintro ⟨i, hi⟩
    cases i with
    | enc x => exact .inl ⟨x, hi⟩
    | dec c => exact .inr (.inl ⟨c, hi⟩)
    | hdrBuild k => exact .inr (.inr (.inl ⟨k, hi⟩))
    | hdrPatch n => exact .inr (.inr (.inr ⟨n, hi⟩))
  · rintro (⟨_, h⟩ | ⟨_, h⟩ | ⟨_, h⟩ | ⟨_, h⟩) <;> exact ⟨_, h⟩

/-- The legal words are the words of commands (30_encoding.md R84). -/
theorem legalWord_iff_exists_encode (w : CmdWord) : legalWord w = true ↔ ∃ i, encode i = w := by
  rw [exists_instr_iff, ← encRow_iff, ← decRow_iff, ← hdrBuildRow_iff, ← hdrPatchRow_iff]
  simp [legalWord, opcodeTable, OpRow.selects]

/-- The words that 30_encoding.md R84 makes illegal: opcode 0 or above 4, or a reserved operand bit set. -/
abbrev outsideOpcodeMap (w : CmdWord) : Prop :=
  w.toNat / 2 ^ 32 = 0 ∨ 5 ≤ w.toNat / 2 ^ 32 ∨
    (w.toNat / 2 ^ 32 = 1 ∧ 2 ^ 16 ≤ w.toNat % 2 ^ 32) ∨
    (w.toNat / 2 ^ 32 = 2 ∧ 2 ^ 8 ≤ w.toNat % 2 ^ 32) ∨
    (w.toNat / 2 ^ 32 = 3 ∧ 2 ≤ w.toNat % 2 ^ 32)

theorem exists_encode_iff_not_outside (w : CmdWord) : (∃ i, encode i = w) ↔ ¬outsideOpcodeMap w := by
  rw [exists_instr_iff, exists_encode_enc_iff, exists_encode_dec_iff, exists_encode_hdrBuild_iff,
    exists_encode_hdrPatch_iff]
  simp only [← BitVec.toNat_inj, toNat_opcodeOf, toNat_operandOf, BitVec.toNat_ofNat, outsideOpcodeMap]
  omega

end Sys2Proof

namespace Sys2Proof.Machine

/-- A word that is no command's is answered with Fault(IllegalCommand) (60_exceptions.md R204). -/
theorem blockTurn_of_not_encode {w : CmdWord} (h : ¬∃ i, encode i = w) (s : State) :
    blockTurn w s = .next (s.takeCommand.raise (.illegalCommand w)) := by
  rcases blockTurn_cases w s with ⟨i, hd, _⟩ | ⟨e, _, he⟩
  · exact absurd ⟨i, decode_eq_ok_iff.mp hd⟩ h
  · exact he

/-- Settles O5: the words outside the opcode map are those of no command. -/
theorem illegalWordsAnswerIllegalCommand : Obligations.IllegalWordsAnswerIllegalCommand := by
  intro w s hw
  refine ⟨fun hout => ?_, fun hin => ?_⟩
  · have hno : ¬∃ i, encode i = w := fun h => (exists_encode_iff_not_outside w).mp h hout
    refine ⟨by rwa [← Bool.not_eq_true, legalWord_iff_exists_encode], ?_⟩
    rw [step_of_cmdPort hw]
    exact blockTurn_of_not_encode hno s
  · have hyes : ∃ i, encode i = w := (exists_encode_iff_not_outside w).mpr hin
    obtain ⟨i, hi⟩ := hyes
    have hd : decode w = .ok i := decode_eq_ok_iff.mpr hi
    exact ⟨(legalWord_iff_exists_encode w).mpr ⟨i, hi⟩, i, hd, stepExecutesTheDecodedCommand s w i hw hd⟩

end Sys2Proof.Machine

/-! ## The host's actions and the script

A PUT of the host and `PUT <off>, RESULT` are one operation on the bytes. A line of two plain tokens is the command its
tokens name, so a line assembles to its word once its operand is parsed. -/

namespace Sys2Proof.Machine

/-! ### PUT -/

theorem hostPut_accepted {off : Nat} {bytes : List Byte} {s : State} (h : s.sink.accepts off bytes.length = true) :
    hostPut off bytes s = State.setAnswer { s with frame := s.frame.writeBytes off bytes } (.put true) := by
  rw [hostPut, State.store_accepted h]

theorem hostPut_refused {off : Nat} {bytes : List Byte} {s : State} (h : s.sink.accepts off bytes.length = false) :
    hostPut off bytes s = s.setAnswer (.put false) := by
  rw [hostPut, State.store_refused h]

/-- Settles O46: a host between actions takes the next one, and each clause is what that action does. -/
theorem hostActionsActAsTheSpecSays : Obligations.HostActionsActAsTheSpecSays := by
  intro s rest hfree
  refine ⟨fun w hp => step_of_hostFree hfree hp, fun off bytes hp ha => ?_, fun off bytes hp ha => ?_,
    fun off n hp => step_of_hostFree hfree hp, fun hp => step_of_hostFree hfree hp⟩
  · have hput := hostPut_accepted (s := s.setPending rest) ha
    rw [step_of_hostFree hfree hp, hostAction, hput]
    exact ⟨_, rfl, rfl, Memory.read_writeBytes_inside bytes s.frame off,
      Memory.read_writeBytes_outside bytes s.frame off⟩
  · have hput := hostPut_refused (s := s.setPending rest) ha
    rw [step_of_hostFree hfree hp, hostAction, hput]
    rfl

/-- With result bytes on the response port, `PUT <off>, RESULT` steps as the PUT of those bytes. -/
theorem step_putResult_of_result {s : State} {off : Nat} {rest : List HostAction} {bytes : List Byte} (hfree : s.hostFree)
    (hp : s.host.pending = .putResult off :: rest) (hb : s.resultBytes = some bytes) :
    step s = step { s with host := { s.host with pending := .put off bytes :: rest } } := by
  have hput : step { s with host := { s.host with pending := .put off bytes :: rest } } =
      .next (hostPut off bytes (s.setPending rest)) :=
    step_of_hostFree (s := { s with host := { s.host with pending := .put off bytes :: rest } }) hfree rfl
  have hb' : (s.setPending rest).resultBytes = some bytes := hb
  rw [hput, step_of_hostFree hfree hp, hostAction, hostPutResult, hb']

theorem step_putResult_of_no_result {s : State} {off : Nat} {rest : List HostAction} (hfree : s.hostFree)
    (hp : s.host.pending = .putResult off :: rest) (hb : s.resultBytes = none) : step s = .refused .noResult := by
  have hb' : (s.setPending rest).resultBytes = none := hb
  rw [step_of_hostFree hfree hp, hostAction, hostPutResult, hb']

/-- The two bytes of a 16-bit vector are its low and its high half. -/
theorem le16_eq (v : BitVec 16) : le16 v = [v.extractLsb' 0 8, v.extractLsb' 8 8] := by
  simp [le16, leBytes, ← BitVec.toNat_inj, Nat.shiftRight_eq_div_pow]

/-- Settles O47: the bytes of the response are those of its payload, and a response without payload has none. -/
theorem putResultStoresThePreviousBytes : Obligations.PutResultStoresThePreviousBytes := by
  intro s off rest hfree hp
  refine ⟨fun c hr => ?_, fun y hr => ?_, fun h hr => ?_, fun hr => ?_⟩
  · exact step_putResult_of_result hfree hp (by rw [State.resultBytes, hr]; rfl)
  · rw [← le16_eq]
    exact step_putResult_of_result hfree hp (by rw [State.resultBytes, hr]; rfl)
  · exact step_putResult_of_result hfree hp (by rw [State.resultBytes, hr]; rfl)
  · refine step_putResult_of_no_result hfree hp ?_
    rcases hr with hr | hr | ⟨c, hr⟩ <;> rw [State.resultBytes, hr] <;> rfl

/-! ### A line that yields a word -/

theorem parsePut_ne_issue (off : Nat) (ts : List (List Char)) (w : CmdWord) : parsePut off ts ≠ some (.issue w) := by
  cases ts with
  | nil => exact nofun
  | cons t ts =>
    rw [parsePut]
    split
    · exact nofun
    · cases parseBytes (t :: ts) <;> exact nofun

/-- Only a line of two tokens hands a word over, and that word is the encoding of a command. -/
theorem exists_encode_of_parseTokens {ts : List (List Char)} {w : CmdWord} (h : parseTokens ts = some (some (.issue w))) :
    ∃ i, encode i = w := by
  unfold parseTokens at h
  split at h
  case h_1 => cases h
  case h_2 => split at h <;> cases h
  case h_3 m operand =>
    obtain ⟨i, _, hi⟩ := Option.map_eq_some_iff.mp h
    cases hi
    exact ⟨i, rfl⟩
  case h_4 m off comma rest =>
    split at h
    · obtain ⟨a, ha, hissue⟩ := Option.map_eq_some_iff.mp h
      cases hissue
      obtain ⟨k, _, hput⟩ := Option.bind_eq_some_iff.mp ha
      exact absurd hput (parsePut_ne_issue k rest w)
    · cases h

/-- Settles O54: the word is the encoding of a command, so it is legal and decodes to that command. -/
theorem assembledCommandsAreLegal : Obligations.AssembledCommandsAreLegal := by
  intro line w h
  obtain ⟨i, hi⟩ := exists_encode_of_parseTokens h
  exact ⟨(legalWord_iff_exists_encode w).mpr ⟨i, hi⟩, i, decode_eq_ok_iff.mpr hi⟩

/-! ### Operands -/

theorem below_some {bound k : Nat} (h : k < bound) : below bound (some k) = some k := by
  simp [below, h]

/-- Decimal digits are neither the minus sign nor the `x` of a hexadecimal number. -/
theorem decimal_digitChars_unmarked {ds : List Nat} (h : ∀ d ∈ ds, d < 10) :
    ∀ c ∈ digitChars false ds, c ≠ '-' ∧ c ≠ 'x' := by
  have hdigit : ∀ d < 10, Nat.digitChar d ≠ '-' ∧ Nat.digitChar d ≠ 'x' := by decide
  simp only [digitChars, List.mem_map]
  rintro c ⟨d, hd, rfl⟩
  exact hdigit d (h d hd)

theorem parseSample_of_unmarked {tok : List Char} (h : ∀ c ∈ tok, c ≠ '-' ∧ c ≠ 'x') :
    parseSample tok = (below 32768 (digits 10 tok)).map (fun k : Nat => bits16 k) := by
  unfold parseSample
  split
  · exact absurd rfl (h '-' (by simp)).1
  · exact absurd rfl (h 'x' (by simp)).2
  · rfl

theorem hexNumber_of_unmarked {tok : List Char} (h : ∀ c ∈ tok, c ≠ '-' ∧ c ≠ 'x') : hexNumber tok = none := by
  unfold hexNumber
  split
  · exact absurd rfl (h 'x' (by simp)).2
  · rfl

section decimal

variable {ds : List Nat} (hne : ds ≠ []) (hds : ∀ d ∈ ds, d < 10)
include hne hds

theorem parseSample_decimal (h : numeral 10 ds ≤ 32767) :
    parseSample (digitChars false ds) = some (BitVec.ofInt 16 (numeral 10 ds)) := by
  rw [parseSample_of_unmarked (decimal_digitChars_unmarked hds), digits_digitChars (by decide) false hne hds,
    below_some (by omega)]
  rfl

theorem parseSample_negative (h : numeral 10 ds ≤ 32768) :
    parseSample ('-' :: digitChars false ds) = some (BitVec.ofInt 16 (-(numeral 10 ds : Int))) := by
  rw [parseSample, digits_digitChars (by decide) false hne hds, below_some (by omega)]
  rfl

theorem unsignedNumber_decimal : unsignedNumber (digitChars false ds) = some (numeral 10 ds) := by
  rw [unsignedNumber, hexNumber_of_unmarked (decimal_digitChars_unmarked hds)]
  exact digits_digitChars (by decide) false hne hds

theorem parseCount_decimal (h : numeral 10 ds ≤ 0xFFFFFFFF) :
    parseCount (digitChars false ds) = some (BitVec.ofNat 32 (numeral 10 ds)) := by
  rw [parseCount, unsignedNumber_decimal hne hds, below_some (by omega)]
  rfl

end decimal

section hexadecimal

variable (up : Bool) {ds : List Nat} (hne : ds ≠ []) (hds : ∀ d ∈ ds, d < 16)
include hne hds

theorem hexNumber_digitChars : hexNumber ('0' :: 'x' :: digitChars up ds) = some (numeral 16 ds) :=
  digits_digitChars (by decide) up hne hds

theorem parseSample_hex (h : numeral 16 ds ≤ 0xFFFF) :
    parseSample ('0' :: 'x' :: digitChars up ds) = some (BitVec.ofNat 16 (numeral 16 ds)) := by
  rw [parseSample, digits_digitChars (by decide) up hne hds, below_some (by omega)]
  rfl

theorem parseCode_hex (h : numeral 16 ds ≤ 0xFF) :
    parseCode ('0' :: 'x' :: digitChars up ds) = some (BitVec.ofNat 8 (numeral 16 ds)) := by
  rw [parseCode, hexNumber_digitChars up hne hds, below_some (by omega)]
  rfl

theorem unsignedNumber_hex : unsignedNumber ('0' :: 'x' :: digitChars up ds) = some (numeral 16 ds) := by
  rw [unsignedNumber, hexNumber_digitChars up hne hds]

theorem parseCount_hex (h : numeral 16 ds ≤ 0xFFFFFFFF) :
    parseCount ('0' :: 'x' :: digitChars up ds) = some (BitVec.ofNat 32 (numeral 16 ds)) := by
  rw [parseCount, unsignedNumber_hex up hne hds, below_some (by omega)]
  rfl

end hexadecimal

/-! ### Lines -/

/-- A token of plain characters. -/
abbrev PlainToken (tok : List Char) : Prop := tok ≠ [] ∧ tok.all plainChar = true

theorem plainToken_digitChars (up : Bool) {ds : List Nat} (hne : ds ≠ []) (hds : ∀ d ∈ ds, d < 16) :
    PlainToken (digitChars up ds) :=
  ⟨digitChars_ne_nil hne, List.all_eq_true.mpr (plainChar_digitChars hds)⟩

theorem PlainToken.cons {c : Char} {tok : List Char} (hc : plainChar c = true) (h : PlainToken tok) :
    PlainToken (c :: tok) := by
  refine ⟨List.cons_ne_nil c tok, ?_⟩
  rw [List.all_cons, hc, h.2, Bool.and_self]

/-- A line of a mnemonic and an operand assembles to the word of the command they name. -/
theorem assemblesTo_of_parseCommand {m o : List Char} {i : Instr} (hm : PlainToken m) (ho : PlainToken o)
    (h : parseCommand m o = some i) : assemblesTo (m ++ ' ' :: o) (encode i) := by
  obtain ⟨hmne, hmall⟩ := hm
  obtain ⟨hone, hoall⟩ := ho
  have hplain : ∀ c ∈ m ++ o, plainChar c = true :=
    List.forall_mem_append.mpr ⟨List.all_eq_true.mp hmall, List.all_eq_true.mp hoall⟩
  rw [assemblesTo, assembleLine_two hmne hone hplain, h, Option.map_some]

/-! Each command has a mnemonic and the source's name (30_encoding.md R86). Both are plain tokens, and the operand after
them is read by the command's own parser. -/

abbrev encNames : List (List Char) :=
  [['E', 'N', 'C'], ['E', 'n', 'c', 'o', 'd', 'e']]

abbrev decNames : List (List Char) :=
  [['D', 'E', 'C'], ['D', 'e', 'c', 'o', 'd', 'e']]

abbrev hdrBuildNames : List (List Char) :=
  [['H', 'D', 'R', '_', 'B', 'U', 'I', 'L', 'D'], ['b', 'u', 'i', 'l', 'd', 'H', 'e', 'a', 'd', 'e', 'r']]

abbrev hdrPatchNames : List (List Char) :=
  [['H', 'D', 'R', '_', 'P', 'A', 'T', 'C', 'H'], ['p', 'a', 't', 'c', 'h', 'S', 'i', 'z', 'e', 's']]

theorem parseCommand_enc {m : List Char} (hm : m ∈ encNames) (o : List Char) :
    PlainToken m ∧ parseCommand m o = (parseSample o).map .enc := by
  rcases List.mem_pair.mp hm with rfl | rfl <;> exact ⟨by decide, rfl⟩

theorem parseCommand_dec {m : List Char} (hm : m ∈ decNames) (o : List Char) :
    PlainToken m ∧ parseCommand m o = (parseCode o).map .dec := by
  rcases List.mem_pair.mp hm with rfl | rfl <;> exact ⟨by decide, rfl⟩

theorem parseCommand_hdrBuild {m : List Char} (hm : m ∈ hdrBuildNames) (o : List Char) :
    PlainToken m ∧ parseCommand m o = (parseKind o).map .hdrBuild := by
  rcases List.mem_pair.mp hm with rfl | rfl <;> exact ⟨by decide, rfl⟩

theorem parseCommand_hdrPatch {m : List Char} (hm : m ∈ hdrPatchNames) (o : List Char) :
    PlainToken m ∧ parseCommand m o = (parseCount o).map .hdrPatch := by
  rcases List.mem_pair.mp hm with rfl | rfl <;> exact ⟨by decide, rfl⟩

theorem assemblesTo_enc {m o : List Char} {x : Sample} (hm : m ∈ encNames)
    (ho : PlainToken o) (h : parseSample o = some x) :
    assemblesTo (m ++ ' ' :: o) (commandWord 0x01#8 (0#16 ++ x)) := by
  obtain ⟨hplain, hparse⟩ := parseCommand_enc hm o
  rw [← setWidth_eq_zero_append 16 x]
  exact assemblesTo_of_parseCommand (i := .enc x) hplain ho (by rw [hparse, h]; rfl)

theorem assemblesTo_dec {m o : List Char} {c : Code} (hm : m ∈ decNames)
    (ho : PlainToken o) (h : parseCode o = some c) :
    assemblesTo (m ++ ' ' :: o) (commandWord 0x02#8 (0#24 ++ c)) := by
  obtain ⟨hplain, hparse⟩ := parseCommand_dec hm o
  rw [← setWidth_eq_zero_append 24 c]
  exact assemblesTo_of_parseCommand (i := .dec c) hplain ho (by rw [hparse, h]; rfl)

theorem assemblesTo_hdrBuild {m o : List Char} {k : Kind} (hm : m ∈ hdrBuildNames)
    (ho : PlainToken o) (h : parseKind o = some k) :
    assemblesTo (m ++ ' ' :: o) (commandWord 0x03#8 (k.bit.setWidth 32)) := by
  obtain ⟨hplain, hparse⟩ := parseCommand_hdrBuild hm o
  exact assemblesTo_of_parseCommand (i := .hdrBuild k) hplain ho (by rw [hparse, h]; rfl)

theorem assemblesTo_hdrPatch {m o : List Char} {n : Count} (hm : m ∈ hdrPatchNames)
    (ho : PlainToken o) (h : parseCount o = some n) :
    assemblesTo (m ++ ' ' :: o) (commandWord 0x04#8 n) := by
  obtain ⟨hplain, hparse⟩ := parseCommand_hdrPatch hm o
  exact assemblesTo_of_parseCommand (i := .hdrPatch n) hplain ho (by rw [hparse, h]; rfl)

/-- Settles O56: each operand is parsed to its value, and its line assembles to the command's word. -/
theorem commandLinesAssembleToTheirWords : Obligations.CommandLinesAssembleToTheirWords := by
  refine ⟨fun ds hne hds => ?_, fun up ds hne hds => ?_, fun m hm => ?_, fun line comment => ?_⟩
  · have hplain : PlainToken (digitChars false ds) :=
      plainToken_digitChars false hne fun d hd => (hds d hd).trans (by decide)
    refine ⟨fun m hm => ⟨fun h => ?_, fun h => ?_⟩, fun m hm h => ?_⟩
    · exact assemblesTo_enc hm hplain (parseSample_decimal hne hds h)
    · exact assemblesTo_enc hm (hplain.cons rfl) (parseSample_negative hne hds h)
    · exact assemblesTo_hdrPatch hm hplain (parseCount_decimal hne hds h)
  · have hplain : PlainToken ('0' :: 'x' :: digitChars up ds) :=
      ((plainToken_digitChars up hne hds).cons rfl).cons rfl
    refine ⟨fun m hm h => ?_, fun m hm h => ?_, fun m hm h => ?_⟩
    · exact assemblesTo_enc hm hplain (parseSample_hex up hne hds h)
    · exact assemblesTo_dec hm hplain (parseCode_hex up hne hds h)
    · exact assemblesTo_hdrPatch hm hplain (parseCount_hex up hne hds h)
  · exact ⟨assemblesTo_hdrBuild (k := .pcm) hm (by decide) rfl, assemblesTo_hdrBuild (k := .mulaw) hm (by decide) rfl⟩
  · rw [assembleLine, tokens, stripComment_append, assembleLine, tokens]

/-! ### Fixed words and templates -/

/-- Settles O1: ten words, each decoded by evaluation. -/
theorem specWordsDecode : Obligations.SpecWordsDecode :=
  ⟨rfl, rfl, rfl, rfl, rfl, rfl, rfl, rfl, rfl, rfl⟩

/-- Settles O28: both templates are constants, so each field is read off by evaluation. -/
theorem templateFieldsHoldTheSpecValues : Obligations.TemplateFieldsHoldTheSpecValues := by
  intro k
  cases k <;> decide

end Sys2Proof.Machine

/-! ## ENC: the scan, the mantissa, the code

A biased magnitude `m` has a level, its segment times 16 plus its mantissa, and lies in the level's cell: `m` divided by the
segment's step is 16 plus the mantissa (`div_step`), and no other segment and mantissa fit (`levelOf_eq_of_div_step`). The
code is 255 less the sign bit and the level (`toNat_encodeSample`), so the claims about codes are claims about levels. -/

namespace Sys2Proof.Machine

/-! ### The leading-bit scan -/

theorem scanFrom_of_lt {m : Nat} (hm : m < 32) (k : Nat) : scanFrom m k = 5 := by
  induction k with
  | zero => rfl
  | succ k ih =>
    have hbit : m.testBit (5 + (k + 1)) = false :=
      Nat.testBit_lt_two_pow (hm.trans_le (Nat.pow_le_pow_right (n := 2) (i := 5) (by decide) (by omega)))
    rw [scanFrom, hbit, if_neg Bool.false_ne_true, ih]

theorem scanFrom_eq_log {m : Nat} (hlo : 32 ≤ m) {k : Nat} (hhi : m < 2 ^ (5 + k + 1)) : scanFrom m k = Nat.log 2 m := by
  induction k with
  | zero => exact (Nat.log_eq_of_pow_le_of_lt_pow hlo hhi).symm
  | succ k ih =>
    by_cases htop : 2 ^ (5 + (k + 1)) ≤ m
    · rw [scanFrom, Nat.testBit_of_two_pow_le_and_two_pow_add_one_gt htop hhi, if_pos rfl]
      exact (Nat.log_eq_of_pow_le_of_lt_pow htop hhi).symm
    · rw [scanFrom, Nat.testBit_lt_two_pow (Nat.not_le.mp htop), if_neg Bool.false_ne_true]
      exact ih (Nat.not_le.mp htop)

theorem position_eq_segmentOf_add (m : Nat) : position m = segmentOf m + 5 :=
  (Nat.sub_add_cancel (position_bounds m).1).symm

/-- The four bits below the leading one, as a number. -/
theorem mantissaOf_eq (m : Nat) : mantissaOf m = m / 2 ^ (segmentOf m + 1) % 16 := by
  rw [mantissaOf, position_eq_segmentOf_add, Nat.shiftRight_eq_div_pow]
  exact Nat.and_two_pow_sub_one_eq_mod _ 4

/-- The segment and the mantissa as one number, the low seven bits of the logical byte (40_encode.md R105). -/
def levelOf (m : Nat) : Nat := 16 * segmentOf m + mantissaOf m

theorem levelOf_le (m : Nat) : levelOf m ≤ 127 := by
  have hseg := segmentOf_le m
  have hmant := mantissaOf_le m
  rw [levelOf]
  omega

/-! ### The cell of a biased magnitude -/

/-- The leading bit is 16 steps of its segment. -/
theorem two_pow_leading (seg : Nat) : 2 ^ (seg + 5) = 16 * 2 ^ (seg + 1) := by ring

section cell

variable {m : Nat} (hlo : 32 ≤ m) (hhi : m ≤ 8191)

include hlo hhi

theorem position_eq_log : position m = Nat.log 2 m :=
  scanFrom_eq_log hlo (Nat.lt_succ_of_le hhi)

theorem position_eq_iff {p : Nat} : position m = p ↔ 2 ^ p ≤ m ∧ m < 2 ^ (p + 1) := by
  rw [position_eq_log hlo hhi, Nat.log_eq_iff (.inr ⟨by decide, by omega⟩)]

theorem segmentOf_eq_iff {seg : Nat} : segmentOf m = seg ↔ 2 ^ (seg + 5) ≤ m ∧ m < 2 ^ (seg + 6) := by
  rw [← position_eq_iff hlo hhi, position_eq_segmentOf_add, Nat.add_right_cancel_iff]

/-- A segment holds the numbers of 16 to 31 of its steps. -/
theorem segmentOf_eq_iff_steps {seg : Nat} : segmentOf m = seg ↔ 16 ≤ m / 2 ^ (seg + 1) ∧ m / 2 ^ (seg + 1) < 32 := by
  have hpos : 0 < 2 ^ (seg + 1) := Nat.two_pow_pos _
  have hnext : 2 ^ (seg + 6) = 32 * 2 ^ (seg + 1) := by ring
  rw [segmentOf_eq_iff hlo hhi, two_pow_leading, hnext, Nat.le_div_iff_mul_le hpos, Nat.div_lt_iff_lt_mul hpos]

/-- Counted in steps of its segment, a biased magnitude is the leading bit and the mantissa (40_encode.md R104). -/
theorem div_step : m / 2 ^ (segmentOf m + 1) = 16 + mantissaOf m := by
  obtain ⟨hle, hlt⟩ := (segmentOf_eq_iff_steps hlo hhi).mp rfl
  rw [mantissaOf_eq]
  omega

/-- The leading bit, the mantissa and the dropped bits (40_encode.md R104). -/
theorem eq_leading_mantissa_rest :
    m = 2 ^ (segmentOf m + 5) + mantissaOf m * 2 ^ (segmentOf m + 1) + m % 2 ^ (segmentOf m + 1) := by
  have hdiv := Nat.div_add_mod' m (2 ^ (segmentOf m + 1))
  rw [div_step hlo hhi, Nat.add_mul] at hdiv
  rw [two_pow_leading, hdiv]

/-- The cells do not overlap: the step count of one segment fits that segment alone. -/
theorem levelOf_eq_of_div_step {seg k : Nat} (hk : k < 16) (h : m / 2 ^ (seg + 1) = 16 + k) :
    levelOf m = 16 * seg + k := by
  have hseg : segmentOf m = seg := (segmentOf_eq_iff_steps hlo hhi).mpr (by omega)
  have hdiv := div_step hlo hhi
  rw [hseg] at hdiv
  rw [levelOf, hseg]
  omega

/-- Only the magnitude 0 has level 0 (40_encode.md R107: `m` = 32 and 33 are the first cell). -/
theorem levelOf_pos (h34 : 34 ≤ m) : 0 < levelOf m := by
  refine Nat.pos_of_ne_zero fun h0 => ?_
  rw [levelOf] at h0
  have hdiv := div_step hlo hhi
  rw [show segmentOf m = 0 by omega] at hdiv
  omega

/-- The top cell, from 7936 up, is level 127. -/
theorem segmentOf_mantissaOf_top (htop : 7936 ≤ m) : segmentOf m = 7 ∧ mantissaOf m = 15 := by
  have hlevel : levelOf m = 16 * 7 + 15 := levelOf_eq_of_div_step hlo hhi (by decide) (by omega)
  have hseg := segmentOf_le m
  have hmant := mantissaOf_le m
  rw [levelOf] at hlevel
  omega

end cell

theorem levelOf_mono {m n : Nat} (hlo : 32 ≤ m) (hmn : m ≤ n) (hhi : n ≤ 8191) : levelOf m ≤ levelOf n := by
  have hm : m ≤ 8191 := hmn.trans hhi
  have hn : 32 ≤ n := hlo.trans hmn
  have hpos : position m ≤ position n := by
    rw [position_eq_log hlo hm, position_eq_log hn hhi]
    exact Nat.log_mono_right hmn
  rw [position_eq_segmentOf_add, position_eq_segmentOf_add] at hpos
  have hmant := mantissaOf_le m
  rw [levelOf, levelOf]
  rcases Nat.lt_or_ge (segmentOf m) (segmentOf n) with hlt | hge
  · omega
  · have hseg : segmentOf m = segmentOf n := by omega
    have hdiv : m / 2 ^ (segmentOf n + 1) ≤ n / 2 ^ (segmentOf n + 1) := Nat.div_le_div_right hmn
    rw [← hseg, div_step hlo hm, hseg, div_step hn hhi] at hdiv
    omega

/-! ### The biased magnitude and the sign of a sample -/

theorem biasedOf_eq (x : Sample) : biasedOf x = min (x.toInt.natAbs + 33) 8191 := rfl

theorem biasedOf_bounds (x : Sample) : 33 ≤ biasedOf x ∧ biasedOf x ≤ 8191 := by
  rw [biasedOf_eq]
  omega

theorem le_biasedOf (x : Sample) : 32 ≤ biasedOf x := Nat.le_of_succ_le (biasedOf_bounds x).1

theorem biasedOf_le (x : Sample) : biasedOf x ≤ 8191 := (biasedOf_bounds x).2

/-- The level rises with the magnitude. -/
theorem levelOf_biasedOf_mono {x y : Sample} (h : x.toInt.natAbs ≤ y.toInt.natAbs) :
    levelOf (biasedOf x) ≤ levelOf (biasedOf y) := by
  refine levelOf_mono (le_biasedOf x) ?_ (biasedOf_le y)
  rw [biasedOf_eq, biasedOf_eq]
  omega

theorem encSign_of_neg {i : Int} (h : i < 0) : encSign i = 1 := if_pos h

theorem encSign_of_nonneg {i : Int} (h : 0 ≤ i) : encSign i = 0 := if_neg (Int.not_lt.mpr h)

theorem encSign_le (i : Int) : encSign i ≤ 1 := by
  rw [encSign]
  split <;> decide

/-! ### The code -/

/-- Three fields that do not overlap: `|` is addition. -/
theorem or_fields {sign seg mant : Nat} (hseg : seg < 8) (hmant : mant < 16) :
    (sign <<< 7) ||| (seg <<< 4) ||| mant = 128 * sign + (16 * seg + mant) := by
  have hlow : seg <<< 4 ||| mant = 16 * seg + mant := by
    rw [← Nat.shiftLeft_add_eq_or_of_lt hmant, Nat.shiftLeft_eq, Nat.mul_comm]
  rw [Nat.or_assoc, hlow, ← Nat.shiftLeft_add_eq_or_of_lt (by omega), Nat.shiftLeft_eq, Nat.mul_comm]

theorem packLogical_eq_append {sign seg mant : Nat} (hsign : sign < 2) (hseg : seg < 8) (hmant : mant < 16) :
    packLogical sign seg mant = BitVec.ofNat 1 sign ++ BitVec.ofNat 3 seg ++ BitVec.ofNat 4 mant := by
  refine BitVec.eq_of_toNat_eq ?_
  simp only [packLogical, BitVec.toNat_append, BitVec.toNat_ofNat, Nat.shiftLeft_or_distrib, ← Nat.shiftLeft_add]
  rw [Nat.mod_eq_of_lt hsign, Nat.mod_eq_of_lt hseg, Nat.mod_eq_of_lt hmant, or_fields hseg hmant]
  omega

/-- The logical byte is the sign bit over the level (40_encode.md R105). -/
theorem toNat_logicalOf (x : Sample) : (logicalOf x).toNat = 128 * encSign x.toInt + levelOf (biasedOf x) := by
  have hsign := encSign_le x.toInt
  have hseg := segmentOf_le (biasedOf x)
  have hmant := mantissaOf_le (biasedOf x)
  rw [logicalOf, packLogical, or_fields (by omega) (by omega), BitVec.toNat_ofNat]
  exact Nat.mod_eq_of_lt (by rw [signed16]; omega)

theorem toNat_complementByte (b : Byte) : (complementByte b).toNat = 255 - b.toNat := BitVec.toNat_not

theorem toNat_encodeSample (x : Sample) :
    (encodeSample x).toNat = 255 - (128 * encSign x.toInt + levelOf (biasedOf x)) := by
  rw [encodeSample, toNat_complementByte, toNat_logicalOf]

theorem toNat_encodeSample_of_nonneg {x : Sample} (h : 0 ≤ x.toInt) :
    (encodeSample x).toNat = 255 - levelOf (biasedOf x) := by
  rw [toNat_encodeSample, encSign_of_nonneg h, Nat.mul_zero, Nat.zero_add]

theorem toNat_encodeSample_of_neg {x : Sample} (h : x.toInt < 0) :
    (encodeSample x).toNat = 127 - levelOf (biasedOf x) := by
  rw [toNat_encodeSample, encSign_of_neg h]
  omega

/-- A code for a negative sample has a level above 0, and so is not the negative zero (40_encode.md R109). -/
theorem toNat_encodeSample_lt_of_neg {x : Sample} (h : x.toInt < 0) : (encodeSample x).toNat < 127 := by
  have hm := biasedOf_eq x
  have hpos := levelOf_pos (le_biasedOf x) (biasedOf_le x) (by omega)
  rw [toNat_encodeSample_of_neg h]
  omega

theorem encodeSample_ne_negativeZero (x : Sample) : encodeSample x ≠ 0x7F#8 := by
  intro h
  have hcode : (encodeSample x).toNat = 127 := congrArg BitVec.toNat h
  rcases lt_or_ge x.toInt 0 with hx | hx
  · exact absurd hcode (toNat_encodeSample_lt_of_neg hx).ne
  · rw [toNat_encodeSample_of_nonneg hx] at hcode
    have hlevel := levelOf_le (biasedOf x)
    omega

/-! ### DEC at a level -/

/-- The magnitude DEC answers for a level: the middle of the level's cell, less the bias (41_decode.md R124, R125). -/
def cellMagnitude (level : Nat) : Nat := (2 * (level % 16) + 33) * 2 ^ (level / 16) - 33

theorem cellMagnitude_mono : Monotone cellMagnitude := by
  refine monotone_nat_of_le_succ fun level => Nat.sub_le_sub_right ?_ 33
  by_cases htop : level % 16 = 15
  · rw [htop, show (level + 1) % 16 = 0 by omega, show (level + 1) / 16 = level / 16 + 1 by omega]
    omega
  · rw [show (level + 1) / 16 = level / 16 by omega]
    exact Nat.mul_le_mul_right _ (by omega)

theorem cellMagnitude_le {level : Nat} (h : level ≤ 127) : cellMagnitude level ≤ 8031 := cellMagnitude_mono h

theorem cellMagnitude_pos {level : Nat} (h : 0 < level) : 0 < cellMagnitude level :=
  (by decide : 0 < cellMagnitude 1).trans_le (cellMagnitude_mono h)

theorem rebuildBiased_eq (seg : Nat) {mant : Nat} (hmant : mant < 16) :
    rebuildBiased seg mant = (2 * mant + 33) * 2 ^ seg := by
  have hpos := Nat.two_pow_pos seg
  have hlow : mant <<< (seg + 1) ||| 1 <<< seg = (2 * mant + 1) * 2 ^ seg := by
    rw [← Nat.shiftLeft_add_eq_or_of_lt (by rw [Nat.shiftLeft_eq]; omega)]
    simp only [Nat.shiftLeft_eq]
    ring
  have hlt : (2 * mant + 1) * 2 ^ seg < 2 ^ (seg + 5) := by
    rw [Nat.pow_add, Nat.mul_comm (2 ^ seg)]
    exact Nat.mul_lt_mul_of_pos_right (by omega) hpos
  have hor : rebuildBiased seg mant = 1 <<< (seg + 5) ||| (mant <<< (seg + 1) ||| 1 <<< seg) := Nat.or_assoc ..
  rw [hor, hlow, ← Nat.shiftLeft_add_eq_or_of_lt hlt, Nat.shiftLeft_eq]
  ring

theorem logicalSegment_eq (b : Byte) : logicalSegment b = b.toNat % 128 / 16 := by
  rw [logicalSegment, BitVec.extractLsb'_toNat, Nat.shiftRight_eq_div_pow]
  omega

theorem logicalMantissa_eq (b : Byte) : logicalMantissa b = b.toNat % 128 % 16 := by
  rw [logicalMantissa, BitVec.extractLsb'_toNat, Nat.shiftRight_zero]
  omega

theorem getLsbD_seven_iff (b : Byte) : b.getLsbD 7 = true ↔ 128 ≤ b.toNat := by
  have h := BitVec.msb_eq_decide b
  rw [BitVec.msb_eq_getLsbD_last] at h
  rw [h, decide_eq_true_iff]

theorem rebuildMagnitude_eq (b : Byte) : rebuildMagnitude b = cellMagnitude (b.toNat % 128) := by
  rw [rebuildMagnitude, logicalSegment_eq, logicalMantissa_eq, rebuildBiased_eq _ (Nat.mod_lt _ (by decide)), cellMagnitude]

theorem decodedValue_eq (c : Code) :
    decodedValue c = if c.toNat < 128 then -(cellMagnitude (127 - c.toNat) : Int) else cellMagnitude (255 - c.toNat) := by
  have hsign : decSign (complementByte c) = true ↔ c.toNat < 128 := by
    rw [decSign, getLsbD_seven_iff, toNat_complementByte]
    omega
  simp only [decodedValue, hsign, rebuildMagnitude_eq, toNat_complementByte]
  split
  · rw [show (255 - c.toNat) % 128 = 127 - c.toNat by omega]
  · rw [show (255 - c.toNat) % 128 = 255 - c.toNat by omega]

theorem toInt_decodeCode (c : Code) : (decodeCode c).toInt = decodedValue c := by
  have hneg := cellMagnitude_le (Nat.sub_le 127 c.toNat)
  have hbounds : -8031 ≤ decodedValue c ∧ decodedValue c ≤ 8031 := by
    rw [decodedValue_eq]
    split
    · omega
    · have hpos := cellMagnitude_le (level := 255 - c.toNat) (by omega)
      omega
  exact BitVec.toInt_ofInt_eq_self (by decide) (by omega) (by omega)

theorem toInt_decodeCode_of_lt {c : Code} (h : c.toNat < 128) :
    (decodeCode c).toInt = -(cellMagnitude (127 - c.toNat) : Int) := by
  rw [toInt_decodeCode, decodedValue_eq, if_pos h]

theorem toInt_decodeCode_of_ge {c : Code} (h : 128 ≤ c.toNat) :
    (decodeCode c).toInt = (cellMagnitude (255 - c.toNat) : Int) := by
  rw [toInt_decodeCode, decodedValue_eq, if_neg (Nat.not_lt.mpr h)]

theorem toInt_decodeCode_encodeSample_of_nonneg {x : Sample} (h : 0 ≤ x.toInt) :
    (decodeCode (encodeSample x)).toInt = (cellMagnitude (levelOf (biasedOf x)) : Int) := by
  have hlevel := levelOf_le (biasedOf x)
  have hcode := toNat_encodeSample_of_nonneg h
  rw [toInt_decodeCode_of_ge (by omega), hcode, Nat.sub_sub_self (by omega)]

theorem toInt_decodeCode_encodeSample_of_neg {x : Sample} (h : x.toInt < 0) :
    (decodeCode (encodeSample x)).toInt = -(cellMagnitude (levelOf (biasedOf x)) : Int) := by
  have hlevel := levelOf_le (biasedOf x)
  have hcode := toNat_encodeSample_of_neg h
  rw [toInt_decodeCode_of_lt (by omega), hcode, Nat.sub_sub_self hlevel]

/-! ### ENC after DEC -/

/-- The middle of a level's cell has that level. -/
theorem levelOf_cellMagnitude_add_bias {level : Nat} (h : level ≤ 127) :
    cellMagnitude level + 33 ≤ 8191 ∧ levelOf (cellMagnitude level + 33) = level := by
  have hle := cellMagnitude_le h
  have hpos := Nat.two_pow_pos (level / 16)
  have hmid : cellMagnitude level + 33 = (2 * (level % 16) + 33) * 2 ^ (level / 16) :=
    Nat.sub_add_cancel (Nat.le_trans (by omega) (Nat.le_mul_of_pos_right _ hpos))
  have hstep : (cellMagnitude level + 33) / 2 ^ (level / 16 + 1) = 16 + level % 16 := by
    rw [hmid, Nat.pow_succ', Nat.mul_div_mul_right _ _ hpos]
    omega
  refine ⟨by omega, ?_⟩
  rw [levelOf_eq_of_div_step (by omega) (by omega) (Nat.mod_lt _ (by decide)) hstep, Nat.div_add_mod]

theorem levelOf_biasedOf_of_natAbs {x : Sample} {level : Nat} (hlevel : level ≤ 127)
    (h : x.toInt.natAbs = cellMagnitude level) : levelOf (biasedOf x) = level := by
  obtain ⟨hle, heq⟩ := levelOf_cellMagnitude_add_bias hlevel
  rw [biasedOf_eq, h, Nat.min_eq_left hle, heq]

/-- ENC gives back every code but the negative zero (40_encode.md R109, 41_decode.md R132). -/
theorem encodeSample_decodeCode {c : Code} (hc : c ≠ 0x7F#8) : encodeSample (decodeCode c) = c := by
  refine BitVec.eq_of_toNat_eq ?_
  rcases Nat.lt_or_ge c.toNat 128 with hlt | hge
  · have hval := toInt_decodeCode_of_lt hlt
    have hne : c.toNat ≠ 127 := fun h => hc (BitVec.eq_of_toNat_eq h)
    have hpos := cellMagnitude_pos (level := 127 - c.toNat) (by omega)
    rw [toNat_encodeSample_of_neg (by omega), levelOf_biasedOf_of_natAbs (Nat.sub_le 127 c.toNat) (by omega)]
    omega
  · have hval := toInt_decodeCode_of_ge hge
    rw [toNat_encodeSample_of_nonneg (by omega), levelOf_biasedOf_of_natAbs (level := 255 - c.toNat) (by omega) (by omega)]
    omega

/-! ### The obligations on ENC -/

/-- A reserved operand bit that is 1 makes the word of ENC illegal (30_encoding.md R84). -/
theorem decode_enc_reserved {r : BitVec 16} (hr : r ≠ 0#16) (x : Sample) :
    decode (commandWord 0x01#8 (r ++ x)) = .error (.reservedBits "ENC") := by
  rw [decode, opcodeOf_commandWord, if_pos rfl, operandOf_commandWord, decodeEnc, BitVec.extractLsb'_append_eq_left, if_neg hr]

/-- Settles O11: the scan is the binary logarithm, so the position is the leading bit and the bits above it are zero. -/
theorem scanFindsTheLeadingBit : Obligations.ScanFindsTheLeadingBit := by
  refine ⟨fun m hlo hhi => ?_, fun m hm => scanFrom_of_lt hm _, biasedOf_bounds⟩
  obtain ⟨hle, hlt⟩ := (position_eq_iff hlo hhi).mp rfl
  refine ⟨(position_bounds m).1, (position_bounds m).2, Nat.testBit_of_two_pow_le_and_two_pow_add_one_gt hle hlt,
    fun j hj _ => ?_, hle, hlt, position_eq_log hlo hhi⟩
  exact Nat.testBit_lt_two_pow (hlt.trans_le (Nat.pow_le_pow_right (by decide) hj))

/-- Settles O13: the dropped bits are the remainder of the biased magnitude by the step. -/
theorem mantissaIsTruncation : Obligations.MantissaIsTruncation := by
  intro x
  rw [position_eq_segmentOf_add]
  exact ⟨biasedOf x % 2 ^ (segmentOf (biasedOf x) + 1), Nat.mod_lt _ (Nat.two_pow_pos _),
    eq_leading_mantissa_rest (le_biasedOf x) (biasedOf_le x)⟩

/-- Settles O12: the logical byte is the concatenation of its fields, and its top bit is the sign. -/
theorem encPacksAndComplements : Obligations.EncPacksAndComplements := by
  intro x
  have hlevel := levelOf_le (biasedOf x)
  refine ⟨?_, ?_, ?_⟩
  · have hpack := packLogical_eq_append (Nat.lt_succ_of_le (encSign_le x.toInt))
      (Nat.lt_succ_of_le (segmentOf_le (biasedOf x))) (Nat.lt_succ_of_le (mantissaOf_le (biasedOf x)))
    exact congrArg (~~~ ·) hpack
  · rw [toNat_encodeSample, levelOf, ← Nat.add_assoc, segmentOf]
  · rw [getLsbD_seven_iff]
    rcases lt_or_ge x.toInt 0 with hx | hx
    · rw [toNat_encodeSample_of_neg hx]
      omega
    · rw [toNat_encodeSample_of_nonneg hx]
      omega

/-- Settles O10: the segment is the logarithm less 5, and the word is the encoding of ENC. -/
theorem encAnswersTheSpecCode : Obligations.EncAnswersTheSpecCode := by
  intro x s
  refine ⟨exec_enc x s, ?_, ?_, fun r hr => ⟨_, decode_enc_reserved hr x⟩⟩
  · have hlog := position_eq_log (le_biasedOf x) (biasedOf_le x)
    rw [position_eq_segmentOf_add] at hlog
    simp only [← biasedOf_eq, ← hlog]
    rw [toNat_encodeSample, levelOf, mantissaOf_eq, encSign, ← Nat.add_assoc]
    rfl
  · rw [← setWidth_eq_zero_append 16 x]
    exact decodeOfEncode (.enc x)

/-- A sample in a segment has the segment's mantissa and codes. -/
theorem encode_in_segment {x : Sample} {seg : Nat} (hlo : 2 ^ (seg + 5) ≤ biasedOf x) (hhi : biasedOf x < 2 ^ (seg + 6)) :
    segmentOf (biasedOf x) = seg ∧
    mantissaOf (biasedOf x) = (biasedOf x - 2 ^ (seg + 5)) / 2 ^ (seg + 1) ∧
    (0 ≤ x.toInt → 0xF0 - 16 * seg ≤ (encodeSample x).toNat ∧ (encodeSample x).toNat ≤ 0xFF - 16 * seg) ∧
    (x.toInt < 0 → 0x70 - 16 * seg ≤ (encodeSample x).toNat ∧ (encodeSample x).toNat ≤ 0x7F - 16 * seg) := by
  have hseg : segmentOf (biasedOf x) = seg := (segmentOf_eq_iff (le_biasedOf x) (biasedOf_le x)).mpr ⟨hlo, hhi⟩
  have hdiv := div_step (le_biasedOf x) (biasedOf_le x)
  have hmant := mantissaOf_le (biasedOf x)
  rw [hseg] at hdiv
  refine ⟨hseg, ?_, fun hx => ?_, fun hx => ?_⟩
  · rw [two_pow_leading, Nat.mul_comm, Nat.sub_mul_div, hdiv, Nat.add_sub_cancel_left]
  · rw [toNat_encodeSample_of_nonneg hx, levelOf, hseg]
    omega
  · rw [toNat_encodeSample_of_neg hx, levelOf, hseg]
    omega

/-- The magnitude ranges of 40_encode.md R107 are those of the biased magnitude, less the bias; the last one is cut off by
the clamp alone. -/
theorem segmentTable_rows : ∀ row ∈
    [(0, 0, 30), (1, 31, 94), (2, 95, 222), (3, 223, 478), (4, 479, 990), (5, 991, 2014), (6, 2015, 4062),
      (7, 4063, 32768)],
    2 ^ (row.1 + 5) ≤ row.2.1 + 33 ∧ row.2.1 ≤ 4063 ∧ (row.2.2 + 33 < 2 ^ (row.1 + 6) ∨ 2 ^ (row.1 + 6) = 8192) := by
  decide

/-- Settles O14: a row's magnitudes are those of its segment. -/
theorem encFollowsTheSegmentTable : Obligations.EncFollowsTheSegmentTable := by
  intro x row hrow hmin hmax
  obtain ⟨hstart, hclip, hend⟩ := segmentTable_rows row hrow
  have hm := biasedOf_eq x
  have hlo : 2 ^ (row.1 + 5) ≤ biasedOf x := by omega
  have hhi : biasedOf x < 2 ^ (row.1 + 6) := by omega
  obtain ⟨hseg, hmant, hpos, hneg⟩ := encode_in_segment hlo hhi
  refine ⟨hseg, hlo, hhi, hmant, hpos, fun hx => ?_⟩
  obtain ⟨hle, hge⟩ := hneg hx
  exact ⟨hle, hge, (toNat_encodeSample_lt_of_neg hx).ne⟩

/-- Settles O15: from magnitude 7903 up the biased magnitude lies in the top cell. -/
theorem encSaturates : Obligations.EncSaturates := by
  intro x
  have hm := biasedOf_eq x
  have htop (h : 7903 ≤ x.toInt.natAbs) := segmentOf_mantissaOf_top (le_biasedOf x) (biasedOf_le x) (by omega)
  refine ⟨fun hx => ?_, fun hx => ?_, fun hlo hhi => ?_, fun hx => ⟨by omega, by omega⟩⟩
  · obtain ⟨hseg, hmant⟩ := htop (by omega)
    refine BitVec.eq_of_toNat_eq ?_
    rw [toNat_encodeSample_of_nonneg (by omega), levelOf, hseg, hmant]
    rfl
  · obtain ⟨hseg, hmant⟩ := htop (by omega)
    refine BitVec.eq_of_toNat_eq ?_
    rw [toNat_encodeSample_of_neg (by omega), levelOf, hseg, hmant]
    rfl
  · obtain ⟨hseg, hmant⟩ := htop hlo
    exact ⟨by omega, by omega, by rw [position_eq_segmentOf_add, hseg], hmant⟩

/-- Settles O16: ENC of what DEC answers for a code is that code, unless it is the negative zero. -/
theorem encReturnsAllCodesButNegativeZero : Obligations.EncReturnsAllCodesButNegativeZero := by
  have hresp (x : Sample) (s : State) : responseOf (exec (.enc x) s) = some (.ok (.code (encodeSample x))) := rfl
  intro c
  simp only [hresp, Option.some.injEq, Response.ok.injEq, Result.code.injEq]
  constructor
  · rintro ⟨x, -, rfl⟩
    exact encodeSample_ne_negativeZero x
  · intro hc
    exact ⟨decodeCode c, State.reset, encodeSample_decodeCode hc⟩

theorem toNat_xor_0x80 (c : Byte) : (c ^^^ 0x80#8).toNat = (c.toNat + 128) % 256 := by
  revert c
  decide

/-- Settles O17: the two samples have one level and opposite signs. -/
theorem encSignSymmetry : Obligations.EncSignSymmetry := by
  refine ⟨fun x y hx hy => BitVec.eq_of_toNat_eq ?_, by decide⟩
  have hm : biasedOf y = biasedOf x := by rw [biasedOf_eq, biasedOf_eq, hy, Int.natAbs_neg]
  have hlevel := levelOf_le (biasedOf x)
  rw [toNat_xor_0x80]
  rcases lt_or_ge x.toInt 0 with hneg | hpos
  · rw [toNat_encodeSample_of_nonneg (by omega), toNat_encodeSample_of_neg hneg, hm]
    omega
  · rw [toNat_encodeSample_of_neg (by omega), toNat_encodeSample_of_nonneg hpos, hm]
    omega

/-- Settles O18: on each side of zero the level follows the magnitude, and the decoded magnitude follows the level. -/
theorem encIsMonotone : Obligations.EncIsMonotone := by
  intro x y hxy
  rcases lt_or_ge y.toInt 0 with hy | hy
  · have hx : x.toInt < 0 := Int.lt_of_le_of_lt hxy hy
    have hlevel : levelOf (biasedOf y) ≤ levelOf (biasedOf x) := levelOf_biasedOf_mono (by omega)
    have hcell := cellMagnitude_mono hlevel
    rw [toInt_decodeCode_encodeSample_of_neg hx, toInt_decodeCode_encodeSample_of_neg hy, toNat_encodeSample_of_neg hx,
      toNat_encodeSample_of_neg hy]
    omega
  · rw [toInt_decodeCode_encodeSample_of_nonneg hy, toNat_encodeSample_of_nonneg hy]
    rcases lt_or_ge x.toInt 0 with hx | hx
    · rw [toInt_decodeCode_encodeSample_of_neg hx]
      omega
    · have hlevel : levelOf (biasedOf x) ≤ levelOf (biasedOf y) := levelOf_biasedOf_mono (by omega)
      have hcell := cellMagnitude_mono hlevel
      rw [toInt_decodeCode_encodeSample_of_nonneg hx, toNat_encodeSample_of_nonneg hx]
      omega

/-- Settles O19: the pseudocode evaluated on -32768 with its exact magnitude (the spec's decision D7), and on -32767. -/
theorem encOfTheMostNegativeSample : Obligations.EncOfTheMostNegativeSample :=
  ⟨by decide, by decide, by decide, by decide, by decide, by decide, exec_enc 0x8000#16, by decide⟩

end Sys2Proof.Machine

/-! ## DEC: the level of a code, and the round trip

A code has a level, the low seven bits of its logical byte, and DEC answers the middle of the level's cell with the code's
sign (`natAbs_decodeCode`), so the claims about samples are claims about `cellMagnitude`. ENC gives the level back
(`encodeSample_decodeCode`), and a sample is at most half a step away from the middle of its own cell
(`cellMagnitude_levelOf_error`). -/

namespace Sys2Proof.Machine

/-! ### The level of a code -/

/-- The segment and the mantissa of a code as one number, the low seven bits of its logical byte (30_encoding.md R71,
41_decode.md R121). -/
def codeLevel (c : Code) : Nat := (255 - c.toNat) % 128

theorem codeLevel_le (c : Code) : codeLevel c ≤ 127 := Nat.le_of_lt_succ (Nat.mod_lt _ (by decide))

theorem codeLevel_eq_zero_iff (c : Code) : codeLevel c = 0 ↔ c = 0xFF#8 ∨ c = 0x7F#8 := by
  rw [codeLevel, ← BitVec.toNat_inj, ← BitVec.toNat_inj, BitVec.toNat_ofNat, BitVec.toNat_ofNat]
  omega

/-- The low four bits of the logical byte are the level's mantissa. -/
theorem codeLevel_mod (c : Code) : codeLevel c % 16 = (255 - c.toNat) % 16 := by
  rw [codeLevel]
  omega

/-- The three bits above them are its segment. -/
theorem codeLevel_div (c : Code) : codeLevel c / 16 = (255 - c.toNat) / 16 % 8 := by
  rw [codeLevel]
  omega

/-! ### The sample of a code -/

theorem toInt_decodeCode_eq (c : Code) :
    (decodeCode c).toInt =
      if 128 ≤ 255 - c.toNat then -(cellMagnitude (codeLevel c) : Int) else cellMagnitude (codeLevel c) := by
  have hsign : decSign (complementByte c) = true ↔ 128 ≤ 255 - c.toNat := by
    rw [decSign, getLsbD_seven_iff, toNat_complementByte]
  simp only [toInt_decodeCode, decodedValue, hsign, rebuildMagnitude_eq, toNat_complementByte, codeLevel]

theorem natAbs_decodeCode (c : Code) : (decodeCode c).toInt.natAbs = cellMagnitude (codeLevel c) := by
  rw [toInt_decodeCode_eq]
  split
  · rw [Int.natAbs_neg, Int.natAbs_natCast]
  · rw [Int.natAbs_natCast]

/-- The middle of the cell, less the bias, from the fields of the logical byte (41_decode.md R120, R124). -/
theorem cellMagnitude_codeLevel (c : Code) :
    cellMagnitude (codeLevel c) = rebuildBiased ((255 - c.toNat) / 16 % 8) ((255 - c.toNat) % 16) - 33 := by
  rw [rebuildBiased_eq _ (Nat.mod_lt _ (by decide)), cellMagnitude, codeLevel_mod, codeLevel_div]

theorem cellMagnitude_eq_zero_iff {level : Nat} : cellMagnitude level = 0 ↔ level = 0 := by
  constructor
  · intro h
    by_contra hne
    exact (cellMagnitude_pos (Nat.pos_of_ne_zero hne)).ne' h
  · rintro rfl
    rfl

theorem decodeCode_eq_zero_iff (c : Code) : decodeCode c = 0#16 ↔ c = 0xFF#8 ∨ c = 0x7F#8 := by
  rw [← codeLevel_eq_zero_iff, ← cellMagnitude_eq_zero_iff, ← natAbs_decodeCode, Int.natAbs_eq_zero, ← BitVec.toInt_inj,
    BitVec.toInt_zero]

/-- Inside a segment the cells are one step apart (41_decode.md R127). -/
theorem cellMagnitude_succ {level : Nat} (h : level % 16 ≠ 15) :
    cellMagnitude (level + 1) = cellMagnitude level + 2 ^ (level / 16 + 1) := by
  have hpos := Nat.two_pow_pos (level / 16)
  have hbias : 33 ≤ (2 * (level % 16) + 33) * 2 ^ (level / 16) :=
    Nat.le_trans (by omega) (Nat.le_mul_of_pos_right _ hpos)
  have hnext : (2 * (level % 16 + 1) + 33) * 2 ^ (level / 16) =
      (2 * (level % 16) + 33) * 2 ^ (level / 16) + 2 ^ (level / 16 + 1) := by ring
  rw [cellMagnitude, cellMagnitude, show (level + 1) % 16 = level % 16 + 1 by omega,
    show (level + 1) / 16 = level / 16 by omega, hnext, Nat.sub_add_comm hbias]

theorem toInt_decodeCode_xor (c : Code) : (decodeCode (c ^^^ 0x80#8)).toInt = -(decodeCode c).toInt := by
  have hxor := toNat_xor_0x80 c
  rcases Nat.lt_or_ge c.toNat 128 with hlt | hge
  · rw [toInt_decodeCode_of_lt hlt, toInt_decodeCode_of_ge (by omega), neg_neg,
      show 255 - (c ^^^ 0x80#8).toNat = 127 - c.toNat by omega]
  · rw [toInt_decodeCode_of_ge hge, toInt_decodeCode_of_lt (by omega),
      show 127 - (c ^^^ 0x80#8).toNat = 255 - c.toNat by omega]

theorem responseOf_dec (c : Code) (s : State) : responseOf (exec (.dec c) s) = some (.ok (.sample (decodeCode c))) := rfl

/-! ### The round trip -/

/-- The round trip keeps the sign, so it errs as the magnitudes do. -/
theorem natAbs_roundTrip_error (x : Sample) :
    ((decodeCode (encodeSample x)).toInt - x.toInt).natAbs =
      ((cellMagnitude (levelOf (biasedOf x)) : Int) - x.toInt.natAbs).natAbs := by
  rcases lt_or_ge x.toInt 0 with hx | hx
  · rw [toInt_decodeCode_encodeSample_of_neg hx]
    omega
  · rw [toInt_decodeCode_encodeSample_of_nonneg hx]
    omega

/-- The middle of a cell is half a step above the cell's first number (41_decode.md R124). -/
theorem cellMagnitude_levelOf (m : Nat) :
    cellMagnitude (levelOf m) + 33 = 2 ^ (segmentOf m + 5) + mantissaOf m * 2 ^ (segmentOf m + 1) + 2 ^ segmentOf m := by
  have hmant := mantissaOf_le m
  have hpos := Nat.two_pow_pos (segmentOf m)
  have hmid : (2 * mantissaOf m + 33) * 2 ^ segmentOf m =
      2 ^ (segmentOf m + 5) + mantissaOf m * 2 ^ (segmentOf m + 1) + 2 ^ segmentOf m := by ring
  rw [cellMagnitude, levelOf, show (16 * segmentOf m + mantissaOf m) % 16 = mantissaOf m by omega,
    show (16 * segmentOf m + mantissaOf m) / 16 = segmentOf m by omega, ← hmid]
  exact Nat.sub_add_cancel (Nat.le_trans (by omega) (Nat.le_mul_of_pos_right _ hpos))

/-- A biased magnitude is at most half a step from the middle of its cell: the dropped bits are fewer than a step. -/
theorem cellMagnitude_levelOf_error {m : Nat} (hlo : 32 ≤ m) (hhi : m ≤ 8191) :
    ((cellMagnitude (levelOf m) + 33 : Int) - m).natAbs ≤ 2 ^ segmentOf m := by
  have hmid := cellMagnitude_levelOf m
  have hcell := eq_leading_mantissa_rest hlo hhi
  have hrest : m % 2 ^ (segmentOf m + 1) < 2 * 2 ^ segmentOf m := by
    rw [← Nat.pow_succ']
    exact Nat.mod_lt _ (Nat.two_pow_pos _)
  omega

/-- ENC after DEC gives the code back, and the positive zero for the negative one (41_decode.md R132). -/
theorem encodeSample_decodeCode_eq (c : Code) : encodeSample (decodeCode c) = if c = 0x7F#8 then 0xFF#8 else c := by
  split
  · next h => rw [h]; decide
  · next h => exact encodeSample_decodeCode h

/-- A second round trip changes nothing: the two zeros decode alike. -/
theorem decodeCode_encodeSample_decodeCode (c : Code) : decodeCode (encodeSample (decodeCode c)) = decodeCode c := by
  rw [encodeSample_decodeCode_eq]
  split
  · next h => rw [h]; decide
  · rfl

/-- The one sample that two codes share is zero: ENC tells all other codes apart (41_decode.md R130). -/
theorem decodeCode_eq_zero_of_eq {c d : Code} (hne : c ≠ d) (h : decodeCode c = decodeCode d) : decodeCode c = 0#16 := by
  by_contra hzero
  have hc : c ≠ 0x7F#8 := fun e => hzero ((decodeCode_eq_zero_iff c).mpr (.inr e))
  have hd : d ≠ 0x7F#8 := fun e => hzero (h.trans ((decodeCode_eq_zero_iff d).mpr (.inr e)))
  exact hne (by rw [← encodeSample_decodeCode hc, h, encodeSample_decodeCode hd])

/-! ### The obligations on DEC -/

/-- A reserved operand bit that is 1 makes the word of DEC illegal (30_encoding.md R84). -/
theorem decode_dec_reserved {r : BitVec 24} (hr : r ≠ 0#24) (c : Code) :
    decode (commandWord 0x02#8 (r ++ c)) = .error (.reservedBits "DEC") := by
  rw [decode, opcodeOf_commandWord, if_neg (by decide), if_pos rfl, operandOf_commandWord, decodeDec,
    BitVec.extractLsb'_append_eq_left, if_neg hr]

/-- Settles O20: the pseudocode's magnitude is the middle of the code's cell, and the word is the encoding of DEC. -/
theorem decAnswersTheSpecSample : Obligations.DecAnswersTheSpecSample := by
  intro c s
  refine ⟨exec_dec c s, ?_, ?_, fun r hr => ⟨_, decode_dec_reserved hr c⟩⟩
  · have hval := toInt_decodeCode_eq c
    rw [cellMagnitude_codeLevel] at hval
    exact hval
  · rw [← setWidth_eq_zero_append 24 c]
    exact decodeOfEncode (.dec c)

/-- Settles O21: the next smaller code of a row has the next level of the same segment. -/
theorem decClosedForm : Obligations.DecClosedForm := by
  intro c s
  refine ⟨decodeCode c, exec_dec c s, ?_, fun d hnext hrow => ⟨decodeCode d, exec_dec d s, ?_⟩⟩
  · rw [natAbs_decodeCode, cellMagnitude, codeLevel_mod, codeLevel_div]
  · have hmod := codeLevel_mod c
    have hlevel : codeLevel d = codeLevel c + 1 := by
      rw [codeLevel, codeLevel]
      omega
    rw [natAbs_decodeCode, natAbs_decodeCode, hlevel, cellMagnitude_succ (by omega), codeLevel_div]

/-- Settles O22: bit 7 is the sign alone; ENC flips it with the sample's sign, and zero stays zero. -/
theorem decSignSymmetry : Obligations.DecSignSymmetry := by
  refine ⟨toInt_decodeCode_xor, fun x y hxy => ?_⟩
  by_cases hx : x.toInt = 0
  · have hx0 : x = 0#16 := BitVec.eq_of_toInt_eq hx
    have hy0 : y = 0#16 := BitVec.eq_of_toInt_eq (by rw [hxy, hx]; rfl)
    rw [hx0, hy0]
    decide
  · rw [encSignSymmetry.1 x y hx hxy, toInt_decodeCode_xor]

/-- Settles O23: the answer is zero exactly at level 0. -/
theorem decHasTwoZeros : Obligations.DecHasTwoZeros := by
  intro c s
  rw [responseOf_dec, Option.some.injEq, Response.ok.injEq, Result.sample.injEq, decodeCode_eq_zero_iff]

/-- Settles O24: the magnitude rises with the level, up to the 8031 of level 127. -/
theorem decRange : Obligations.DecRange := by
  intro s
  refine ⟨fun c => ⟨decodeCode c, exec_dec c s, ?_⟩, ?_, ?_, fun c d hne h => ?_⟩
  · have habs := natAbs_decodeCode c
    have hle := cellMagnitude_le (codeLevel_le c)
    omega
  · rw [responseOf_dec, show decodeCode 0x80#8 = 0x1F5F#16 by decide]
  · rw [responseOf_dec, show decodeCode 0x00#8 = 0xE0A1#16 by decide]
  · simp only [responseOf_dec, Option.some.injEq, Response.ok.injEq, Result.sample.injEq] at h ⊢
    exact decodeCode_eq_zero_of_eq hne h

/-- Settles O25: unclamped, the sample lies in the cell whose middle is answered; clamped, the answer is that of the top
cell. -/
theorem roundTripErrorBound : Obligations.RoundTripErrorBound := by
  refine ⟨fun x hx => ?_, fun x hx => ?_, by decide⟩
  · have hm : biasedOf x = x.toInt.natAbs + 33 := by
      rw [biasedOf_eq]
      omega
    have herr := cellMagnitude_levelOf_error (le_biasedOf x) (biasedOf_le x)
    rw [natAbs_roundTrip_error]
    omega
  · have hm : biasedOf x = 8191 := by
      rw [biasedOf_eq]
      omega
    rw [natAbs_roundTrip_error, hm, show cellMagnitude (levelOf 8191) = 8031 by decide]
    omega

/-- Settles O26: the two commands answer one after the other; the sample DEC answered has its code, or the code of the
other zero. -/
theorem reencodingIsTheIdentity : Obligations.ReencodingIsTheIdentity := by
  intro c s t y hdec hresp
  rw [exec_dec] at hdec
  cases hdec
  cases hresp
  refine ⟨_, _, exec_enc (decodeCode c) _, ?_, exec_dec _ _, ?_⟩
  · rw [State.answerOk_respPort, encodeSample_decodeCode_eq]
  · rw [State.answerOk_respPort, decodeCode_encodeSample_decodeCode]

end Sys2Proof.Machine

/-! ## The header commands

HDR_PATCH in range is an effect whose writes depend on the sink and the count alone (`patchSizes_eq_effect`). The writes of
two patches cover the same bytes, so those of the second hide those of the first (`Memory.writeAll_patchWrites_patchWrites`).
HDR_BUILD and the codec answer the same in every state, because they do not ask the sink (`commandResponse_of_pure`). -/

namespace Sys2Proof.Machine

/-! ### HDR_PATCH at both sides of its bound -/

theorem exec_hdrPatch_of_gt {n : Count} (h : 0xFFFFFFDB < n.toNat) (s : State) :
    exec (.hdrPatch n) s = .next (s.raise (.patchRange n)) := by
  rw [exec_hdrPatch, if_pos h]

theorem exec_hdrPatch_of_le {n : Count} (h : n.toNat ≤ 0xFFFFFFDB) (s : State) :
    exec (.hdrPatch n) s = .next (patchSizes n s) := by
  rw [exec_hdrPatch, if_neg (Nat.not_lt.mpr h)]

/-! ### The two writes under each answer of the sink -/

section
variable {s : State} (n : Count)

theorem patchSizes_of_refused_dataSize (h40 : s.sink.accepts 40 4 = false) :
    patchSizes n s = s.raise (.sinkWrite 40) := by
  simpa [h40, Sink.acceptsPatch] using patchSizes_cases n s

theorem patchSizes_of_refused_chunkSize (h40 : s.sink.accepts 40 4 = true) (h4 : s.sink.accepts 4 4 = false) :
    patchSizes n s = State.raise { s with frame := s.frame.writeBytes 40 (leBytes 4 n.toNat) } (.sinkWrite 4) := by
  simpa [h40, h4, Sink.acceptsPatch] using patchSizes_cases n s

theorem patchSizes_of_acceptsPatch (h : s.sink.acceptsPatch) :
    patchSizes n s = State.answerOk { s with
      frame := (s.frame.writeBytes 40 (leBytes 4 n.toNat)).writeBytes 4 (leBytes 4 (n.toNat + 36)) } .nothing := by
  obtain ⟨h40, h4⟩ := h
  simpa [h40, h4, Sink.acceptsPatch] using patchSizes_cases n s

end

/-- FRAME_CAP of at least 44 and SinkRefuses at its default let HDR_PATCH write (00_scope.md R9). -/
theorem Sink.acceptsPatch_of_default {k : Sink} (hcap : 44 ≤ k.cap) (href : k.refused = []) : k.acceptsPatch := by
  simp only [Sink.acceptsPatch, Sink.accepts_iff, href, List.not_mem_nil, not_false_eq_true, and_true]
  omega

/-- A number written little-endian in a field it fits reads back. -/
theorem Memory.readBytes_writeBytes_leBytes (m : Memory) (a : Nat) {n v : Nat} (h : v < 256 ^ n) :
    ((m.writeBytes a (leBytes n v)).readBytes a n).map leValue = some v :=
  Memory.readBytes_leBytes h (Memory.read_writeBytes_inside (leBytes n v) m a)

/-- Both size fields read back after the two writes, because their ranges are disjoint, and every other byte is as before. -/
theorem Memory.sizeFields_after_writes (m : Memory) {v w : Nat} (hv : v < 256 ^ 4) (hw : w < 256 ^ 4) :
    let m' := (m.writeBytes 40 (leBytes 4 v)).writeBytes 4 (leBytes 4 w)
    (m'.readBytes 40 4).map leValue = some v ∧ (m'.readBytes 4 4).map leValue = some w ∧
      ∀ a, ¬inSizeFields a → m'.read a = m.read a := by
  refine ⟨?_, Memory.readBytes_writeBytes_leBytes _ 4 hw, fun a ha => ?_⟩
  · rw [Memory.writeBytes_comm _ _ _ _ _ (.inl (by simp))]
    exact Memory.readBytes_writeBytes_leBytes _ 40 hv
  · rw [Memory.read_writeBytes_outside _ _ _ _ (by rw [leBytes_length]; omega),
      Memory.read_writeBytes_outside _ _ _ _ (by rw [leBytes_length]; omega)]

/-- Settles O30: the range check comes first, and the sink's answers pick one of the three outcomes of the two writes. -/
theorem hdrPatchFollowsItsPseudocode : Obligations.HdrPatchFollowsItsPseudocode := by
  intro n s
  have hlt : n.toNat < 256 ^ 4 := n.isLt
  refine ⟨decodeOfEncode (.hdrPatch n), fun hn => exec_hdrPatch_of_gt hn s, fun hn h40 => ?_, fun hn h40 h4 => ?_,
    fun hn h40 h4 => ?_, Sink.acceptsPatch_of_default⟩ <;> rw [exec_hdrPatch_of_le hn]
  · rw [patchSizes_of_refused_dataSize n h40]
    rfl
  · rw [patchSizes_of_refused_chunkSize n h40 h4]
    refine ⟨_, rfl, rfl, Memory.readBytes_writeBytes_leBytes s.frame 40 hlt, fun a ha => ?_⟩
    exact Memory.read_writeBytes_outside _ _ _ _ (by rw [leBytes_length]; omega)
  · rw [patchSizes_of_acceptsPatch n ⟨h40, h4⟩]
    exact ⟨_, rfl, rfl, Memory.sizeFields_after_writes s.frame hlt (by omega)⟩

/-! ### Two patches -/

/-- The writes of a patch hide those of a patch before it: the sink lets both come equally far, so they cover the same
bytes. -/
theorem Memory.writeAll_patchWrites_patchWrites (k : Sink) (a b : Count) (m : Memory) :
    (m.writeAll (patchWrites k a)).writeAll (patchWrites k b) = m.writeAll (patchWrites k b) := by
  unfold patchWrites
  split_ifs <;> simp only [Memory.writeAll]
  · rw [Memory.writeBytes_comm (leBytes 4 b.toNat) _ 4 40 _ (by simp), Memory.writeBytes_writeBytes _ _ 40 _ (by simp),
      Memory.writeBytes_writeBytes _ _ 4 _ (by simp)]
  · rw [Memory.writeBytes_writeBytes _ _ 40 _ (by simp)]

/-- The writes of a patch hide those of any command before it. -/
theorem Memory.writeAll_commandWrites_patchWrites (k : Sink) (i : Instr) (b : Count) (m : Memory) :
    (m.writeAll (commandWrites k i)).writeAll (patchWrites k b) = m.writeAll (patchWrites k b) := by
  rcases commandWrites_cases k i with he | ⟨a, _, _, he⟩ <;> rw [he]
  · rfl
  · exact Memory.writeAll_patchWrites_patchWrites k a b m

/-- A command done twice writes what it writes once. -/
theorem Memory.writeAll_commandWrites_idem (k : Sink) (i : Instr) (m : Memory) :
    (m.writeAll (commandWrites k i)).writeAll (commandWrites k i) = m.writeAll (commandWrites k i) := by
  rcases commandWrites_cases k i with he | ⟨a, _, _, he⟩ <;> rw [he]
  · rfl
  · exact Memory.writeAll_patchWrites_patchWrites k a a m

/-- A patch in range after any command is the patch alone, but that the log keeps the causes of that command. -/
theorem patchSizes_effect_commandWrites (s : State) (i : Instr) (r : Response) (b : Count) :
    patchSizes b (s.effect (commandWrites s.sink i) r) =
      { patchSizes b s with faultLog := (patchResponse s.sink).causes ++ (r.causes ++ s.faultLog) } := by
  rw [patchSizes_eq_effect, patchSizes_eq_effect]
  simp only [State.effect, Memory.writeAll_commandWrites_patchWrites]

/-- Settles O31: the second patch hides the writes of the first, and an accepted first patch leaves no cause in the log. -/
theorem secondPatchReplacesTheFirst : Obligations.SecondPatchReplacesTheFirst := by
  intro a b s t h
  rw [exec_eq_effect] at h
  cases h
  refine ⟨fun hb => ?_, fun hb hok => ?_, fun hb => exec_hdrPatch_of_gt hb _, ?_⟩
  · refine ⟨_, _, exec_hdrPatch_of_le hb s, exec_hdrPatch_of_le hb _, ?_⟩
    rw [patchSizes_effect_commandWrites]
  · have hresp : commandResponse s.sink (.hdrPatch a) = .ok .nothing := Option.some.inj hok
    rw [exec_hdrPatch_of_le hb, exec_hdrPatch_of_le hb, patchSizes_effect_commandWrites, hresp, patchSizes_eq_effect]
    rfl
  · exact ⟨_, exec_eq_effect _ _, Memory.writeAll_commandWrites_idem s.sink (.hdrPatch a) s.frame, rfl⟩

/-! ### HDR_BUILD, and the commands whose answer depends on no state -/

/-- A reserved operand bit that is 1 makes the word of HDR_BUILD illegal (30_encoding.md R84). -/
theorem decode_hdrBuild_reserved {r : BitVec 31} (hr : r ≠ 0#31) (k : Kind) :
    decode (commandWord 0x03#8 (r ++ k.bit)) = .error (.reservedBits "HDR_BUILD") := by
  rw [decode, opcodeOf_commandWord, if_neg (by decide), if_neg (by decide), if_pos rfl, operandOf_commandWord,
    decodeHdrBuild, BitVec.extractLsb'_append_eq_left, if_neg hr]

/-- Settles O27: the template is a constant, and the word is the encoding of HDR_BUILD. -/
theorem hdrBuildAnswersTheTemplate : Obligations.HdrBuildAnswersTheTemplate := by
  intro s
  refine ⟨exec_hdrBuild .pcm s, exec_hdrBuild .mulaw s, fun k => ⟨?_, fun r hr => ⟨_, decode_hdrBuild_reserved hr k⟩⟩⟩
  rw [← setWidth_eq_zero_append 31 k.bit]
  exact decodeOfEncode (.hdrBuild k)

theorem responseOf_exec (i : Instr) (s : State) : responseOf (exec i s) = some (commandResponse s.sink i) := by
  rw [exec_eq_effect]
  rfl

/-- Only HDR_PATCH asks the sink, so only its response depends on it. -/
theorem commandResponse_of_pure {i : Instr} (h : ∀ n, i ≠ .hdrPatch n) (k k' : Sink) :
    commandResponse k i = commandResponse k' i := by
  cases i with
  | enc x => rfl
  | dec c => rfl
  | hdrBuild kind => rfl
  | hdrPatch n => exact absurd rfl (h n)

/-- Settles O29: the response is a function of the command and the sink, and these commands do not ask the sink. -/
theorem pureCommandsAnswerAlike : Obligations.PureCommandsAnswerAlike := by
  intro i s t h
  refine ⟨_, responseOf_exec i s, ?_⟩
  rw [responseOf_exec, commandResponse_of_pure h]

end Sys2Proof.Machine

/-! ## Stream runs

One rule per line of a sequence's pseudocode says what the step does (43_stream_sequences.md R172, R178). A line that issues a
command takes the host's turn and the block's (`runSteps_issue`). The stops of R181 to R187 are single lines. For a run that
completes, `State.RunsTo` chains the lines, and the loop is an induction over what is left of the source, for both directions
at once: `Direction.payload` is the payload of the rest, and `Direction.payload_unit` its next unit. -/

namespace Sys2Proof.Machine

/-! ### Each line of a run as a step -/

section
variable {s : State} {r : StreamRun} (hs : s.cmdPort = none) (hr : s.host.run = some r)
include hs hr

theorem step_skipLine (hp : r.phase = .skip) : step s = .next (turnSkip r s) := by
  rw [step_of_run hs hr, streamTurn, hp]

theorem step_headerLine (hp : r.phase = .header) : step s = .next (turnHeader r s) := by
  rw [step_of_run hs hr, streamTurn, hp]

theorem step_putHeaderLine (hp : r.phase = .putHeader) : step s = turnPutHeader r s := by
  rw [step_of_run hs hr, streamTurn, hp]

theorem step_loopLine (hp : r.phase = .loop) : step s = .next (turnLoop r s) := by
  rw [step_of_run hs hr, streamTurn, hp]

theorem step_putUnitLine (hp : r.phase = .putUnit) : step s = turnPutUnit r s := by
  rw [step_of_run hs hr, streamTurn, hp]

theorem step_patchLine (hp : r.phase = .patch) : step s = .next (turnPatch r s) := by
  rw [step_of_run hs hr, streamTurn, hp]

theorem step_finishLine {resp : Response} (hp : r.phase = .finish) (hresp : s.respPort = some resp) :
    step s = .next (s.setRun { r with phase := patchOutcome resp }) := by
  rw [step_of_run hs hr, streamTurn, hp]
  simp only [turnFinish, hresp]

end

theorem turnSkip_of_short_error {r : StreamRun} {s : State} (hshort : r.src.length < s.host.params.skipOf r.dir)
    (herr : s.host.params.shortSkipIsError = true) : turnSkip r s = s.setRun { r with phase := .failed .shortSkip } :=
  if_pos ⟨hshort, herr⟩

/-- A source that is long enough, or that may be short, is skipped as far as it goes. -/
theorem turnSkip_of_no_error {r : StreamRun} {s : State}
    (h : s.host.params.skipOf r.dir ≤ r.src.length ∨ s.host.params.shortSkipIsError = false) :
    turnSkip r s = s.setRun { r with rp := min (s.host.params.skipOf r.dir) r.src.length, phase := .header } := by
  refine if_neg fun ⟨hshort, herr⟩ => ?_
  rcases h with hle | hoff
  · exact Nat.not_lt.mpr hle hshort
  · exact Bool.false_ne_true (hoff.symm.trans herr)

/-- A count that stays within its bound does not wrap (43_stream_sequences.md R170, R187). -/
theorem toNat_cnt_add_writeSize {r : StreamRun} (h : r.cnt.toNat + r.dir.writeSize ≤ 0xFFFFFFDB) :
    (r.cnt + BitVec.ofNat 32 r.dir.writeSize).toNat = r.cnt.toNat + r.dir.writeSize := by
  rw [BitVec.toNat_add, BitVec.toNat_ofNat]
  omega

/-! ### Finitely many steps -/

theorem runSteps_succ {s t : State} (h : step s = .next t) (k : Nat) : runSteps (k + 1) s = runSteps k t := by
  rw [runSteps, h]

theorem runSteps_add {s t : State} {j : Nat} (h : runSteps j s = .next t) (k : Nat) :
    runSteps (j + k) s = runSteps k t := by
  induction j generalizing s with
  | zero =>
    cases h
    rw [Nat.zero_add]
  | succ j ih =>
    rw [runSteps] at h
    split at h
    · next u hu => rw [Nat.succ_add, runSteps_succ hu, ih h]
    · cases h
    · cases h

theorem runSteps_one {s t : State} (h : step s = .next t) : runSteps 1 s = .next t := by
  rw [← Nat.zero_add 1, runSteps_succ h, runSteps]

theorem runSteps_snoc {s t u : State} {j : Nat} (h : runSteps j s = .next t) (hu : step t = .next u) :
    runSteps (j + 1) s = .next u :=
  (runSteps_add h 1).trans (runSteps_one hu)

/-- A step that issues a command, and the block's turn on it: the command's writes and its response. -/
theorem runSteps_issue {s u : State} {i : Instr} (h : step s = .next (u.issue (encode i))) (hu : u.cmdPort = none) :
    runSteps 2 s = .next (u.effect (commandWrites u.sink i) (commandResponse u.sink i)) := by
  have hexec : step (u.issue (encode i)) = .next (u.effect (commandWrites u.sink i) (commandResponse u.sink i)) := by
    rw [stepExecutesTheDecodedCommand _ _ i rfl (decodeOfEncode i), exec_eq_effect, State.effect, State.effect, ← hu]
    rfl
  exact runSteps_snoc (runSteps_one h) hexec

/-! ### Stops of a run -/

/-- Settles O50: the skip line fails exactly when the source is short and the host takes that as an error. -/
theorem shortSourceFollowsTheParameter : Obligations.ShortSourceFollowsTheParameter := by
  intro s r hs hr hp hshort
  rw [step_skipLine hs hr hp]
  refine ⟨fun herr => ?_, fun hoff => ?_⟩
  · rw [turnSkip_of_short_error hshort herr]
    rfl
  · rw [turnSkip_of_no_error (.inr hoff), Nat.min_eq_right hshort.le]
    rfl

/-- Settles O51: the start only puts a failed run in place, and a failed run issues nothing. -/
theorem unopenedStreamNeverStarts : Obligations.UnopenedStreamNeverStarts := by
  intro s rest hfree hpending
  rcases hpending with hp | hp <;>
    exact ⟨_, step_of_hostFree hfree hp, rfl, hfree.1, rfl, step_of_failed hfree.1 rfl rfl⟩

/-- Settles O53: an accepted PUT past the bound is refused by name, and a count within it does not wrap. -/
theorem payloadOverTheCountIsRefused : Obligations.PayloadOverTheCountIsRefused := by
  intro s r bytes hs hr hp hb ha
  rw [step_putUnitLine hs hr hp]
  refine ⟨fun hover => turnPutUnit_of_overlong hb ha hover, fun hle => ?_⟩
  rw [turnPutUnit_of_result hb fun _ => hle, if_pos ha]
  exact ⟨_, _, rfl, rfl, rfl, toNat_cnt_add_writeSize hle, rfl, rfl⟩

/-- A step after which the run has failed and the store is as before: the host then stops. -/
theorem stops_of_failed_run {s u : State} {r : StreamRun} {e : HostError}
    (h : step s = .next (u.setRun { r with phase := .failed e })) (hf : u.frame = s.frame) (hu : u.cmdPort = none) :
    ∃ t, step s = .next t ∧ t.frame = s.frame ∧ t.cmdPort = none ∧ step t = .fault (.runFailed e) :=
  ⟨_, h, hf, hu, step_of_failed (r := { r with phase := .failed e }) hu rfl rfl⟩

/-- From the patch line on: the two size fields as far as the sink lets them come, and the run ends with the response. -/
theorem runSteps_patch {s : State} {r : StreamRun} (hs : s.cmdPort = none) (hr : s.host.run = some r)
    (hp : r.phase = .patch) (hcnt : r.cnt.toNat ≤ 0xFFFFFFDB) :
    runSteps 3 s = .next ((s.effect (patchWrites s.sink r.cnt) (patchResponse s.sink)).setRun
      { r with phase := patchOutcome (patchResponse s.sink) }) := by
  have hin : ¬0xFFFFFFDB < r.cnt.toNat := Nat.not_lt.mpr hcnt
  have hissue := runSteps_issue (step_patchLine hs hr hp) hs
  simp only [commandWrites, commandResponse, if_neg hin] at hissue
  refine runSteps_snoc hissue (step_finishLine (r := { r with phase := .finish }) ?_ rfl rfl rfl)
  exact hs

/-- Settles O52: a refused PUT stores nothing, and HDR_PATCH writes as far as the sink lets it; either way the run fails with
the offset. -/
theorem refusedPutStopsTheRun : Obligations.RefusedPutStopsTheRun := by
  intro s r hs hr
  refine ⟨fun bytes hb hp ha => ?_, fun bytes hb hp ha => ?_, fun off hresp hp => ?_, fun hp hcnt h40 => ?_,
    fun hp hcnt h40 h4 => ?_⟩
  · have hstep := step_putHeaderLine hs hr hp
    rw [turnPutHeader_of_result r hb, hostPut_refused ha, ha] at hstep
    exact stops_of_failed_run hstep rfl hs
  · have hstep := step_putUnitLine hs hr hp
    rw [turnPutUnit_of_result hb (by simp [ha]), hostPut_refused ha, ha] at hstep
    exact stops_of_failed_run hstep rfl hs
  · exact stops_of_failed_run (step_finishLine hs hr hp hresp) rfl hs
  · have hrun := runSteps_patch hs hr hp hcnt
    simp only [patchWrites, patchResponse, h40] at hrun
    exact ⟨3, _, hrun, rfl, hs, step_of_failed hs rfl rfl⟩
  · have hrun := runSteps_patch hs hr hp hcnt
    simp only [patchWrites, patchResponse, h40, h4] at hrun
    refine ⟨3, _, hrun, Memory.readBytes_writeBytes_leBytes s.frame 40 r.cnt.isLt, fun a ha => ?_, hs,
      step_of_failed hs rfl rfl⟩
    exact Memory.read_writeBytes_outside _ _ _ _ (by rw [leBytes_length]; omega)

/-! ### Stores of adjoining and of enclosed bytes -/

theorem Memory.writeBytes_append (bs : List Byte) : ∀ (m : Memory) (a : Nat) (cs : List Byte),
    m.writeBytes a (bs ++ cs) = (m.writeBytes a bs).writeBytes (a + bs.length) cs := by
  induction bs with
  | nil => intros; rfl
  | cons b bs ih =>
    intro m a cs
    rw [List.cons_append, Memory.writeBytes, Memory.writeBytes, ih, List.length_cons, Nat.add_assoc, Nat.add_comm 1]

/-- Bytes stored inside a stored range replace its middle part. -/
theorem Memory.writeBytes_replace (m : Memory) {a b : Nat} (pre : List Byte) {old new : List Byte} (post : List Byte)
    (hb : b = a + pre.length) (hlen : old.length = new.length) :
    (m.writeBytes a (pre ++ (old ++ post))).writeBytes b new = m.writeBytes a (pre ++ (new ++ post)) := by
  subst hb
  simp only [Memory.writeBytes_append]
  rw [Memory.writeBytes_comm _ _ _ _ _ (.inl (by omega)), Memory.writeBytes_writeBytes _ _ _ _ hlen, hlen]

/-- The two writes of HDR_PATCH fill in the size fields of a header that stands before its payload
(42_wave_header.md R150). -/
theorem Memory.writeBytes_patchedHeader (m : Memory) (kind : Kind) (n : Nat) (payload : List Byte) :
    ((m.writeBytes 0 (template kind ++ payload)).writeBytes 40 (leBytes 4 n)).writeBytes 4 (leBytes 4 (n + 36)) =
      m.writeBytes 0 (patchedHeader kind n ++ payload) := by
  have hdata : template kind ++ payload = (template kind).take 40 ++ ((template kind).drop 40 ++ payload) := by
    rw [← List.append_assoc, List.take_append_drop]
  have hchunk : (template kind).take 40 = (template kind).take 4 ++
      (((template kind).drop 4).take 4 ++ ((template kind).drop 8).take 32) := by cases kind <;> rfl
  have hlen := template_length kind
  rw [hdata, Memory.writeBytes_replace m _ _ (by simp [hlen]) (by simp [hlen]), hchunk, List.append_assoc,
    List.append_assoc, Memory.writeBytes_replace m _ _ (by simp [hlen]) (by simp [hlen])]
  simp only [patchedHeader, List.append_assoc]

theorem patchedHeader_length (kind : Kind) (n : Nat) : (patchedHeader kind n).length = 44 := by
  simp [patchedHeader, template_length]

/-! ### The payload of a source -/

/-- The payload of what is left of a source (43_stream_sequences.md R174, R180). -/
def Direction.payload : Direction → List Byte → List Byte
  | .encode, l => (samplesOf l).map encodeSample
  | .decode, l => l.flatMap (fun c => le16 (decodeCode c))

/-- A rest that still holds a unit: the unit is a command that stores nothing and answers its payload bytes, and the payload
of what follows comes after them. -/
theorem Direction.payload_unit (dir : Direction) {l : List Byte} (h : dir.readSize ≤ l.length) :
    ∃ i bytes, unitCommand dir (l.take dir.readSize) = some i ∧
      (∀ k, commandWrites k i = [] ∧ (commandResponse k i).bytes? = some bytes) ∧
      bytes.length = dir.writeSize ∧ dir.payload l = bytes ++ dir.payload (l.drop dir.readSize) := by
  match dir, l, h with
  | .encode, b0 :: b1 :: rest, _ => exact ⟨.enc (sampleOfBytes b0 b1), _, rfl, fun _ => ⟨rfl, rfl⟩, rfl, rfl⟩
  | .decode, c :: rest, _ => exact ⟨.dec c, _, rfl, fun _ => ⟨rfl, rfl⟩, rfl, rfl⟩

/-- A rest shorter than a unit gives no payload (43_stream_sequences.md R173). -/
theorem Direction.payload_of_short (dir : Direction) {l : List Byte} (h : l.length < dir.readSize) :
    dir.payload l = [] := by
  match dir, l, h with
  | .encode, [], _ => rfl
  | .encode, [_], _ => rfl
  | .decode, [], _ => rfl

theorem samplesOf_length : ∀ l : List Byte, (samplesOf l).length = l.length / 2
  | [] => rfl
  | [_] => by simp [samplesOf]
  | _ :: _ :: rest => by
    rw [samplesOf, List.length_cons, samplesOf_length rest]
    simp only [List.length_cons]
    omega

theorem payload_encode_length (l : List Byte) : (Direction.encode.payload l).length = l.length / 2 := by
  rw [Direction.payload, List.length_map, samplesOf_length]

theorem payload_decode_length (l : List Byte) : (Direction.decode.payload l).length = 2 * l.length := by
  simp [Direction.payload, List.length_flatMap, le16, Nat.mul_comm]

/-! ### The loop test -/

theorem Direction.readSize_pos (dir : Direction) : 0 < dir.readSize := by
  cases dir <;> decide

theorem turnLoop_of_unit {r : StreamRun} {i : Instr} (s : State) (hlong : r.dir.readSize ≤ (r.src.drop r.rp).length)
    (hunit : unitCommand r.dir ((r.src.drop r.rp).take r.dir.readSize) = some i) :
    turnLoop r s = (s.setRun { r with rp := r.rp + r.dir.readSize, phase := .putUnit }).issue (encode i) := by
  have hpos := r.dir.readSize_pos
  rw [List.length_drop] at hlong
  have hread : r.srcRead r.dir.readSize = some ((r.src.drop r.rp).take r.dir.readSize) := if_pos (by omega)
  rw [turnLoop, hread, Option.bind_some, hunit]

theorem turnLoop_of_short_read {r : StreamRun} (s : State) (hshort : (r.src.drop r.rp).length < r.dir.readSize) :
    turnLoop r s = s.setRun { r with phase := .patch } := by
  rw [List.length_drop] at hshort
  have hread : r.srcRead r.dir.readSize = none := if_neg (by omega)
  rw [turnLoop, hread, Option.bind_none]

/-! ### A run that goes on -/

/-- Finitely many steps lead from `s` to `t`, where the store is `m` and the run `r` is about to take its next line; the sink
and what the host does after the run are as in `s`. -/
structure State.RunsTo (s t : State) (m : Memory) (r : StreamRun) : Prop where
  steps : ∃ k, runSteps k s = .next t
  idle : t.cmdPort = none
  run : t.host.run = some r
  frame : t.frame = m
  sink : t.sink = s.sink
  pending : t.host.pending = s.host.pending

theorem State.RunsTo.trans {s t u : State} {m m' : Memory} {r r' : StreamRun} (h : s.RunsTo t m r)
    (h' : t.RunsTo u m' r') : s.RunsTo u m' r' := by
  obtain ⟨j, hj⟩ := h.steps
  obtain ⟨k, hk⟩ := h'.steps
  exact ⟨⟨j + k, (runSteps_add hj k).trans hk⟩, h'.idle, h'.run, h'.frame, h'.sink.trans h.sink,
    h'.pending.trans h.pending⟩

theorem Sink.accepts_of_no_refusals {k : Sink} {addr n : Nat} (href : k.refused = []) (hcap : addr + n ≤ k.cap) :
    k.accepts addr n = true := by
  rw [Sink.accepts_iff, href]
  exact ⟨hcap, List.not_mem_nil⟩

/-- A line that issues a command without writes leads to the run's next line with the response on the port. -/
theorem runsTo_of_issue {s : State} {r : StreamRun} {i : Instr} (hs : s.cmdPort = none)
    (h : step s = .next ((s.setRun r).issue (encode i))) (hw : commandWrites s.sink i = []) :
    ∃ t, s.RunsTo t s.frame r ∧ t.respPort = some (commandResponse s.sink i) := by
  have hissue := runSteps_issue h hs
  rw [State.setRun_sink, hw] at hissue
  exact ⟨_, ⟨⟨2, hissue⟩, hs, rfl, rfl, rfl, rfl⟩, rfl⟩

/-- A line that is an accepted PUT stores its bytes and leads to the run's next line. -/
theorem runsTo_of_put {s : State} {r : StreamRun} {off : Nat} {bytes : List Byte} (hs : s.cmdPort = none)
    (h : step s = .next ((hostPut off bytes s).setRun r)) (ha : s.sink.accepts off bytes.length = true) :
    ∃ t, s.RunsTo t (s.frame.writeBytes off bytes) r := by
  rw [hostPut_accepted ha] at h
  exact ⟨_, ⟨1, runSteps_one h⟩, hs, rfl, rfl, rfl, rfl⟩

section
variable {s : State} {r : StreamRun} (hs : s.cmdPort = none) (hr : s.host.run = some r)
include hs hr

/-- The `skip` line when a short source is no error. -/
theorem runsTo_of_skip (hp : r.phase = .skip)
    (hskip : s.host.params.skipOf r.dir ≤ r.src.length ∨ s.host.params.shortSkipIsError = false) :
    ∃ t, s.RunsTo t s.frame { r with rp := min (s.host.params.skipOf r.dir) r.src.length, phase := .header } := by
  have hline := step_skipLine hs hr hp
  rw [turnSkip_of_no_error hskip] at hline
  exact ⟨_, ⟨1, runSteps_one hline⟩, hs, rfl, rfl, rfl, rfl⟩

/-- The `header` line: HDR_BUILD, and its answer stored at 0. -/
theorem runsTo_of_header (hp : r.phase = .header) (ha : s.sink.accepts 0 44 = true) :
    ∃ t, s.RunsTo t (s.frame.writeBytes 0 (template r.dir.kind)) { r with wp := 44, phase := .loop } := by
  obtain ⟨t, ht, hresp⟩ := runsTo_of_issue hs (step_headerLine hs hr hp) rfl
  have hb : t.resultBytes = some (template r.dir.kind) := by rw [State.resultBytes, hresp]; rfl
  have hat : t.sink.accepts 0 (template r.dir.kind).length = true := by rwa [template_length, ht.sink]
  have hput := step_putHeaderLine ht.idle ht.run rfl
  rw [turnPutHeader_of_result _ hb, if_pos hat] at hput
  obtain ⟨u, hu⟩ := runsTo_of_put ht.idle hput hat
  rw [ht.frame] at hu
  exact ⟨u, ht.trans hu⟩

/-- The `loop` line on a unit: its command, and the answer stored at the write position and counted. -/
theorem runsTo_of_unit {i : Instr} {bytes : List Byte} (hp : r.phase = .loop)
    (hlong : r.dir.readSize ≤ (r.src.drop r.rp).length)
    (hunit : unitCommand r.dir ((r.src.drop r.rp).take r.dir.readSize) = some i)
    (hi : ∀ k, commandWrites k i = [] ∧ (commandResponse k i).bytes? = some bytes)
    (ha : s.sink.accepts r.wp bytes.length = true) (hcnt : r.cnt.toNat + r.dir.writeSize ≤ 0xFFFFFFDB) :
    ∃ t, s.RunsTo t (s.frame.writeBytes r.wp bytes)
      { r with rp := r.rp + r.dir.readSize, wp := r.wp + r.dir.writeSize,
               cnt := r.cnt + BitVec.ofNat 32 r.dir.writeSize, phase := .loop } := by
  obtain ⟨hw, hbytes⟩ := hi s.sink
  have hloop := step_loopLine hs hr hp
  rw [turnLoop_of_unit s hlong hunit] at hloop
  obtain ⟨t, ht, hresp⟩ := runsTo_of_issue hs hloop hw
  have hb : t.resultBytes = some bytes := by rw [State.resultBytes, hresp]; exact hbytes
  have hat : t.sink.accepts r.wp bytes.length = true := by rwa [ht.sink]
  have hput := step_putUnitLine ht.idle ht.run rfl
  rw [turnPutUnit_of_result (r := { r with rp := r.rp + r.dir.readSize, phase := .putUnit }) hb fun _ => hcnt,
    if_pos hat] at hput
  obtain ⟨u, hu⟩ := runsTo_of_put ht.idle hput hat
  rw [ht.frame] at hu
  exact ⟨u, ht.trans hu⟩

/-- The `loop` line on a short read leaves the loop (43_stream_sequences.md R173, R183). -/
theorem runsTo_of_short_read (hp : r.phase = .loop) (hshort : (r.src.drop r.rp).length < r.dir.readSize) :
    ∃ t, s.RunsTo t s.frame { r with phase := .patch } := by
  have hloop := step_loopLine hs hr hp
  rw [turnLoop_of_short_read s hshort] at hloop
  exact ⟨_, ⟨1, runSteps_one hloop⟩, hs, rfl, rfl, rfl, rfl⟩

/-- The `patch` line when the sink accepts both writes. -/
theorem runsTo_of_patch (hp : r.phase = .patch) (hcnt : r.cnt.toNat ≤ 0xFFFFFFDB) (ha : s.sink.acceptsPatch) :
    ∃ t, s.RunsTo t
      ((s.frame.writeBytes 40 (leBytes 4 r.cnt.toNat)).writeBytes 4 (leBytes 4 (r.cnt.toNat + 36)))
      { r with phase := .done } := by
  obtain ⟨h40, h4⟩ := ha
  have hrun := runSteps_patch hs hr hp hcnt
  simp only [patchWrites, patchResponse, h40, h4] at hrun
  exact ⟨_, ⟨3, hrun⟩, hs, rfl, rfl, rfl, rfl⟩

end

/-- The loop stores the payload of the rest of the source from the write position up, counts its bytes and ends, when it has
room for them. By induction on what is left of the source. -/
theorem runsTo_of_loop {s : State} {r : StreamRun} {l : List Byte} (hs : s.cmdPort = none) (hr : s.host.run = some r)
    (hp : r.phase = .loop) (hl : r.src.drop r.rp = l) (href : s.sink.refused = [])
    (hcap : r.wp + (r.dir.payload l).length ≤ s.sink.cap)
    (hcnt : r.cnt.toNat + (r.dir.payload l).length ≤ 0xFFFFFFDB) :
    ∃ t r', s.RunsTo t (s.frame.writeBytes r.wp (r.dir.payload l)) r' ∧ r'.phase = .patch ∧
      r'.cnt.toNat = r.cnt.toNat + (r.dir.payload l).length := by
  induction hn : l.length using Nat.strong_induction_on generalizing s r l with
  | _ n ih =>
    rcases Nat.lt_or_ge l.length r.dir.readSize with hshort | hlong
    · rw [r.dir.payload_of_short hshort]
      obtain ⟨t, ht⟩ := runsTo_of_short_read hs hr hp (hl ▸ hshort)
      exact ⟨t, _, ht, rfl, rfl⟩
    · obtain ⟨i, bytes, hunit, hi, hlen, hpay⟩ := r.dir.payload_unit hlong
      rw [hpay, List.length_append, hlen] at hcap hcnt
      have ha := Sink.accepts_of_no_refusals (addr := r.wp) (n := bytes.length) href (by omega)
      have hle : r.cnt.toNat + r.dir.writeSize ≤ 0xFFFFFFDB := by omega
      have hcount := toNat_cnt_add_writeSize hle
      obtain ⟨t, ht⟩ := runsTo_of_unit hs hr hp (hl ▸ hlong) (hl ▸ hunit) hi ha hle
      have hdrop : (l.drop r.dir.readSize).length < n := by
        have hpos := r.dir.readSize_pos
        rw [List.length_drop]
        omega
      have hcap' : r.wp + r.dir.writeSize + (r.dir.payload (l.drop r.dir.readSize)).length ≤ t.sink.cap := by
        rw [ht.sink]
        omega
      have hcnt' : (r.cnt + BitVec.ofNat 32 r.dir.writeSize).toNat + (r.dir.payload (l.drop r.dir.readSize)).length ≤
          0xFFFFFFDB := by omega
      obtain ⟨u, r', hu, hphase, hfinal⟩ := ih _ hdrop ht.idle ht.run rfl (by rw [← hl, List.drop_drop])
        (by rw [ht.sink, href]) hcap' hcnt' rfl
      refine ⟨u, r', ?_, hphase, ?_⟩
      · rw [hpay, Memory.writeBytes_append, hlen, ← ht.frame]
        exact ht.trans hu
      · rw [hpay, List.length_append, hlen, ← Nat.add_assoc, ← hcount]
        exact hfinal

/-! ### A completed run -/

/-- A new run on a fresh store with room for the result and no refusals completes: skip, header, loop, patch. -/
theorem runsTo_done {s : State} {dir : Direction} {src payload : List Byte} (hs : s.cmdPort = none)
    (hr : s.host.run = some (newRun dir src)) (hf : s.frame = [])
    (hskip : s.host.params.skipOf dir ≤ src.length ∨ s.host.params.shortSkipIsError = false)
    (hpay : dir.payload (src.drop (s.host.params.skipOf dir)) = payload) (href : s.sink.refused = [])
    (hcap : 44 + payload.length ≤ s.sink.cap) (hcnt : payload.length ≤ 0xFFFFFFDB) :
    ∃ t r, s.RunsTo t (Memory.writeBytes [] 0 (patchedHeader dir.kind payload.length ++ payload)) r ∧ r.phase = .done ∧
      r.cnt.toNat = payload.length := by
  obtain ⟨t₁, hskipped⟩ := runsTo_of_skip hs hr rfl hskip
  obtain ⟨t₂, hheader⟩ := runsTo_of_header hskipped.idle hskipped.run rfl
    (Sink.accepts_of_no_refusals (hskipped.sink ▸ href) (by rw [hskipped.sink]; omega))
  have hbefore := hskipped.trans hheader
  obtain ⟨t₃, r, hloop, hpatch, hcount⟩ := runsTo_of_loop hbefore.idle hbefore.run rfl (List.drop_eq_drop_min).symm
    (hbefore.sink ▸ href) (by rw [hbefore.sink]; exact hpay ▸ hcap) (by simpa [newRun, hpay] using hcnt)
  have hcount' : r.cnt.toNat = payload.length := by simpa [newRun, hpay] using hcount
  have hlooped := hbefore.trans hloop
  have hframe : t₃.frame = Memory.writeBytes [] 0 (template dir.kind ++ payload) := by
    rw [hloop.frame, hheader.frame, hskipped.frame, hf, Memory.writeBytes_append, template_length, ← hpay]
    rfl
  obtain ⟨t₄, hdone⟩ := runsTo_of_patch hlooped.idle hlooped.run hpatch (hcount' ▸ hcnt)
    (Sink.acceptsPatch_of_default (by rw [hlooped.sink]; omega) (hlooped.sink ▸ href))
  rw [hframe, hcount', Memory.writeBytes_patchedHeader] at hdone
  exact ⟨t₄, _, hlooped.trans hdone, rfl, hcount'⟩

/-- The frame after one write at 0 into an empty store is what was written. -/
theorem frame_of_single_write {t : State} {bytes : List Byte} (h : t.frame = Memory.writeBytes [] 0 bytes) :
    t.frame.flen = bytes.length ∧ t.frameBytes = some bytes := by
  have hflen : t.frame.flen = bytes.length := by
    rw [h, Memory.flen_writeBytes]
    cases bytes <;> simp [Memory.flen]
  refine ⟨hflen, ?_⟩
  rw [State.frameBytes, hflen, h]
  exact Memory.readBytes_writeBytes [] 0 bytes

/-- A sequence that the host starts on a fresh store with room for the result and no refusals ends with the patched header
and the payload of what follows the skipped bytes (43_stream_sequences.md R174, R180). -/
theorem startedStream_writes_frame {s : State} {dir : Direction} {src payload : List Byte} {rest : List HostAction}
    (hfree : s.hostFree) (hstart : step s = .next (startStream dir (some src) (s.setPending rest))) (hf : s.frame = [])
    (hskip : s.host.params.skipOf dir ≤ src.length ∨ s.host.params.shortSkipIsError = false)
    (hpay : dir.payload (src.drop (s.host.params.skipOf dir)) = payload) (href : s.sink.refused = [])
    (hcap : 44 + payload.length ≤ s.sink.cap) (hcnt : payload.length ≤ 0xFFFFFFDB) :
    ∃ k t r, runSteps k s = .next t ∧ t.host.run = some r ∧ r.phase = .done ∧ t.host.pending = rest ∧
      r.cnt.toNat = payload.length ∧ t.frame.flen = 44 + payload.length ∧
      t.frameBytes = some (patchedHeader dir.kind payload.length ++ payload) := by
  obtain ⟨t, r, ht, hdone, hcount⟩ := runsTo_done (s := startStream dir (some src) (s.setPending rest)) hfree.1 rfl hf
    hskip hpay href hcap hcnt
  obtain ⟨k, hk⟩ := ht.steps
  obtain ⟨hflen, hbytes⟩ := frame_of_single_write ht.frame
  rw [List.length_append, patchedHeader_length] at hflen
  exact ⟨k + 1, t, r, (runSteps_succ hstart k).trans hk, ht.run, hdone, ht.pending, hcount, hflen, hbytes⟩

/-- Settles O48: the payload is one code per sample of what follows the skipped bytes. -/
theorem encodeStreamWritesTheMulawFrame : Obligations.EncodeStreamWritesTheMulawFrame := by
  intro s src rest hfree hf hpending hskip href hcap hcnt
  have hlen := payload_encode_length (src.drop s.host.params.encSkip)
  rw [List.length_drop] at hlen
  have hrun := startedStream_writes_frame (dir := .encode) hfree (step_of_hostFree hfree hpending) hf hskip rfl href
    (by rwa [HostParams.skipOf, hlen]) (by rwa [HostParams.skipOf, hlen])
  rwa [HostParams.skipOf, hlen] at hrun

/-- Settles O49: the payload is two bytes per code of what follows the skipped bytes. -/
theorem decodeStreamWritesThePcmFrame : Obligations.DecodeStreamWritesThePcmFrame := by
  intro s src rest hfree hf hpending hskip href hcap hcnt
  have hlen := payload_decode_length (src.drop s.host.params.decSkip)
  rw [List.length_drop] at hlen
  have hrun := startedStream_writes_frame (dir := .decode) hfree (step_of_hostFree hfree hpending) hf hskip rfl href
    (by rwa [HostParams.skipOf, hlen]) (by rwa [HostParams.skipOf, hlen])
  rwa [HostParams.skipOf, hlen] at hrun

end Sys2Proof.Machine

/-! ## Causes and the idle machine

A legal word is the encoding of a command, and its opcode is 4 exactly when that command is HDR_PATCH
(`opcode_encode_eq_four_iff`). So the cause table has three parts: the illegal word, HDR_PATCH by its pseudocode (O30), and
the commands that can only answer Ok. -/

namespace Sys2Proof.Machine

/-- The word of HDR_PATCH is opcode 4 and the count (30_encoding.md R81). -/
theorem encode_hdrPatch_fields (n : Count) :
    (encode (.hdrPatch n)).toNat / 2 ^ 32 = 4 ∧ (encode (.hdrPatch n)).toNat % 2 ^ 32 = n.toNat ∧
      (encode (.hdrPatch n)).setWidth 32 = n := by
  have hn : (encode (.hdrPatch n)).toNat % 2 ^ 32 = n.toNat := by
    rw [← toNat_operandOf, encode, operandOf_commandWord]
  refine ⟨?_, hn, BitVec.eq_of_toNat_eq ?_⟩
  · rw [← toNat_opcodeOf, encode, opcodeOf_commandWord]
    rfl
  · rw [BitVec.toNat_setWidth, hn]

/-- Opcode 4 is that of HDR_PATCH and of no other command (30_encoding.md R81). -/
theorem opcode_encode_eq_four_iff (i : Instr) : (encode i).toNat / 2 ^ 32 = 4 ↔ ∃ n, i = .hdrPatch n := by
  calc (encode i).toNat / 2 ^ 32 = 4
    _ ↔ opcodeOf (encode i) = 0x04#8 := by rw [← toNat_opcodeOf, ← BitVec.toNat_inj]; rfl
    _ ↔ ∃ n, encode (.hdrPatch n) = encode i := (exists_encode_hdrPatch_iff _).symm
    _ ↔ ∃ n, i = .hdrPatch n := by simp only [← decode_eq_ok_iff, decodeOfEncode i, Except.ok.injEq]

/-- Settles O55: an illegal word changes no byte, HDR_PATCH makes its checks in the order of its pseudocode, and every other
command answers Ok. -/
theorem responsesFollowTheCauseTable : Obligations.ResponsesFollowTheCauseTable := by
  intro s w hw
  cases hl : legalWord w with
  | false =>
    have hno : ¬∃ i, encode i = w := by rw [← legalWord_iff_exists_encode, hl]; decide
    exact ⟨_, _, (step_of_cmdPort hw).trans (blockTurn_of_not_encode hno s), rfl, rfl, rfl, rfl⟩
  | true =>
    obtain ⟨i, rfl⟩ := (legalWord_iff_exists_encode w).mp hl
    rw [stepExecutesTheDecodedCommand s _ i hw (decodeOfEncode i)]
    simp only [Bool.true_eq_false, if_false]
    by_cases hpatch : ∃ n, i = .hdrPatch n
    · obtain ⟨n, rfl⟩ := hpatch
      obtain ⟨hop, hcount, hword⟩ := encode_hdrPatch_fields n
      obtain ⟨_, hrange, hdata, hchunk, hok, _⟩ := hdrPatchFollowsItsPseudocode n s.takeCommand
      simp only [hop, hcount, hword, true_and]
      by_cases hn : 0xFFFFFFDB < n.toNat
      · exact ⟨_, _, hrange hn, rfl, by rw [if_pos hn]; exact ⟨rfl, rfl, rfl⟩⟩
      · have hle : n.toNat ≤ 0xFFFFFFDB := Nat.not_lt.mp hn
        simp only [if_neg hn]
        cases h40 : s.sink.accepts 40 4 with
        | false => exact ⟨_, _, hdata hle h40, rfl, rfl, rfl, rfl⟩
        | true =>
          cases h4 : s.sink.accepts 4 4 with
          | false =>
            obtain ⟨t, hexec, ht, hread, hrest⟩ := hchunk hle h40 h4
            exact ⟨t, _, hexec, by rw [ht], rfl, rfl, hread, hrest⟩
          | true =>
            obtain ⟨t, hexec, ht, _⟩ := hok hle h40 h4
            exact ⟨t, _, hexec, by rw [ht], ⟨_, rfl⟩, rfl⟩
    · have hop : (encode i).toNat / 2 ^ 32 ≠ 4 := mt (opcode_encode_eq_four_iff i).mp hpatch
      obtain ⟨_, v, hv⟩ := pureCommand_writes_response (not_exists.mp hpatch) s.sink
      refine ⟨_, .ok v, exec_eq_effect i _, congrArg some hv, ?_⟩
      simp only [hop, false_and, if_false]
      exact ⟨⟨v, rfl⟩, rfl⟩

/-- A host between actions turns to its pending actions, also when none is left. -/
theorem step_eq_runPending_of_hostFree {s : State} (h : s.hostFree) : step s = runPending s := by
  obtain ⟨hport, hnone | ⟨r, hr, hdone⟩⟩ := h
  · rw [step_of_idle hport, hostTurn_of_no_run hnone]
  · rw [step_of_run hport hr, streamTurn, hdone]

/-- Settles O9: the free host turns to its pending actions, and there is none to take. -/
theorem idleMachineStays : Obligations.IdleMachineStays := by
  intro s hfree hpending
  rw [step_eq_runPending_of_hostFree hfree]
  rcases runPending_cases s with ⟨_, hstay⟩ | ⟨a, rest, hcons, _⟩
  · exact hstay
  · rw [hpending] at hcons
    cases hcons

end Sys2Proof.Machine

/-! ## The ports

The block's turn empties the command port. A host turn issues a word, which empties the response port, or is a RESET, which
empties both, or leaves both ports as they are. -/

namespace Sys2Proof.Machine

/-- A word cut out of its own 40 bits is itself (notes/assumptions/19.md). -/
theorem tableWord_toNat (w : CmdWord) : tableWord 40 w.toNat = w := by
  rw [tableWord, Nat.mod_eq_of_lt w.isLt, BitVec.ofNat_toNat, BitVec.setWidth_eq]

/-- Settles O7: the port then holds the command's own word, and the step executes what it decodes to. -/
theorem handedOverCommandRunsNext : Obligations.HandedOverCommandRunsNext := by
  intro s i
  rw [State.withFetchWord, tableWord_toNat]
  exact stepExecutesTheDecodedCommand (s.issue (encode i)) _ i rfl (decodeOfEncode i)

/-! ### The port invariant -/

/-- A free command port meets the invariant. -/
theorem State.portInv_of_cmdPort {s : State} (h : s.cmdPort = none) : s.PortInv := by
  simp [State.PortInv, h]

/-- So does a word just issued: it has no response yet (70_reset_and_hazards.md R254; notes/assumptions/3.md). -/
theorem State.issue_portInv (s : State) (w : CmdWord) : (s.issue w).PortInv := fun _ => rfl

/-- The port invariant reads the two ports only. -/
theorem State.PortInv.congr {s t : State} (hi : s.PortInv) (hc : t.cmdPort = s.cmdPort) (hr : t.respPort = s.respPort) :
    t.PortInv := by
  rwa [State.PortInv, hc, hr]

@[simp] theorem hostPut_cmdPort (off : Nat) (bytes : List Byte) (s : State) :
    (hostPut off bytes s).cmdPort = s.cmdPort := by
  rcases hostPut_cases off bytes s with ⟨_, h⟩ | ⟨_, h⟩ <;> rw [h] <;> rfl

@[simp] theorem hostPut_respPort (off : Nat) (bytes : List Byte) (s : State) :
    (hostPut off bytes s).respPort = s.respPort := by
  rcases hostPut_cases off bytes s with ⟨_, h⟩ | ⟨_, h⟩ <;> rw [h] <;> rfl

theorem hostPut_portInv {s : State} (hi : s.PortInv) (off : Nat) (bytes : List Byte) : (hostPut off bytes s).PortInv :=
  hi.congr (hostPut_cmdPort off bytes s) (hostPut_respPort off bytes s)

theorem setRun_portInv {s : State} (hi : s.PortInv) (r : StreamRun) : (s.setRun r).PortInv :=
  hi.congr rfl rfl

theorem startStream_portInv {s : State} (hi : s.PortInv) (dir : Direction) (src : Option (List Byte)) :
    (startStream dir src s).PortInv := by
  obtain ⟨r, hr⟩ := startStream_cases dir src s
  rw [hr]
  exact setRun_portInv hi r

/-! ### A step keeps it -/

/-- Whatever `PUT <off>, RESULT` hands on is a PUT of result bytes (30_encoding.md R87). -/
theorem hostPutResult_next {off : Nat} {s t : State} (h : hostPutResult off s = .next t) :
    ∃ bytes, s.resultBytes = some bytes ∧ t = hostPut off bytes s := by
  unfold hostPutResult at h
  cases hb : s.resultBytes with
  | none => simp [hb] at h
  | some bytes =>
    rw [hb] at h
    cases h
    exact ⟨bytes, rfl, rfl⟩

/-- The block's turn takes the word off the port (60_exceptions.md R204; 70_reset_and_hazards.md R254). -/
theorem blockTurn_cmdPort {w : CmdWord} {s t : State} (h : blockTurn w s = .next t) : t.cmdPort = none := by
  rw [blockTurn_eq_effect] at h
  cases h
  rfl

theorem hostAction_portInv {a : HostAction} {s t : State} (hi : s.PortInv) (h : hostAction a s = .next t) :
    t.PortInv := by
  cases a with
  | issue w => cases h; exact State.issue_portInv s w
  | put off bytes => cases h; exact hostPut_portInv hi off bytes
  | putResult off =>
    obtain ⟨bytes, _, rfl⟩ := hostPutResult_next h
    exact hostPut_portInv hi off bytes
  | read off n => cases h; exact hi.congr rfl rfl
  | reset => cases h; exact State.portInv_of_cmdPort rfl
  | encodeStream src => cases h; exact startStream_portInv hi .encode src
  | decodeStream src => cases h; exact startStream_portInv hi .decode src

theorem runPending_portInv {s t : State} (hi : s.PortInv) (h : runPending s = .next t) : t.PortInv := by
  rcases runPending_cases s with ⟨_, he⟩ | ⟨a, rest, _, he⟩ <;> rw [he] at h
  · cases h; exact hi
  · exact hostAction_portInv (s := s.setPending rest) (hi.congr rfl rfl) h

theorem streamTurn_portInv {r : StreamRun} {s t : State} (hi : s.PortInv) (h : streamTurn r s = .next t) :
    t.PortInv := by
  unfold streamTurn at h
  cases hp : r.phase <;> rw [hp] at h
  case skip =>
    obtain ⟨r', he⟩ := turnSkip_cases r s
    cases h; rw [he]; exact setRun_portInv hi r'
  case header => cases h; exact State.issue_portInv _ _
  case putHeader =>
    obtain ⟨bytes, r', _, rfl⟩ := turnPutHeader_next h
    exact setRun_portInv (hostPut_portInv hi 0 bytes) r'
  case loop =>
    rcases turnLoop_cases r s with ⟨r', i, he⟩ | ⟨r', he⟩ <;> cases h <;> rw [he]
    · exact State.issue_portInv _ _
    · exact setRun_portInv hi r'
  case putUnit =>
    obtain ⟨bytes, r', _, rfl⟩ := turnPutUnit_next h
    exact setRun_portInv (hostPut_portInv hi r.wp bytes) r'
  case patch => cases h; exact State.issue_portInv _ _
  case finish =>
    rcases turnFinish_cases r s with ⟨resp, _, he⟩ | ⟨_, he⟩ <;> simp only [he] at h <;> cases h
    exact setRun_portInv hi _
  case done => exact runPending_portInv hi h
  case failed e => cases h

theorem hostTurn_portInv {s t : State} (hi : s.PortInv) (h : hostTurn s = .next t) : t.PortInv := by
  cases hr : s.host.run with
  | none => rw [hostTurn_of_no_run hr] at h; exact runPending_portInv hi h
  | some r => rw [hostTurn_of_run hr] at h; exact streamTurn_portInv hi h

/-- Settles O42: the block's turn frees the command port, and the host issues a word only with the response port emptied. -/
theorem stepKeepsOneCommandInFlight : Obligations.StepKeepsOneCommandInFlight := by
  intro s t hi h
  cases hw : s.cmdPort with
  | some w =>
    rw [step_of_cmdPort hw] at h
    exact State.portInv_of_cmdPort (blockTurn_cmdPort h)
  | none =>
    rw [step_of_idle hw] at h
    exact hostTurn_portInv hi h

end Sys2Proof.Machine
